-- ==== Sys2Proof/Word.lean ====
section
/-! DEFINITION. Bits, bit vectors of any length, and bytes (spec/00_scope.md R7, R8, R9). -/

namespace Sys2Proof

/-- A `Bit` is 0 or 1 (R7): `false` is 0 and `true` is 1. -/
abbrev Bit := Bool

/-- A bit vector of R7: a finite sequence of bits, element 0 first (leftmost). Its length is significant, so it is a
list and not a machine word of fixed width. -/
abbrev Bits := List Bit

/-- A byte: an 8-bit unsigned value, bit 0 least significant (R8). -/
abbrev Byte := BitVec 8

/-- `zeros(L)`: the vector of `L` zeros (R7). -/
def zeros (len : Nat) : Bits := List.replicate len false

/-- `v ⊕ w`, element by element (R9). The rules only form it for two vectors of equal length. -/
def xorBits (v w : Bits) : Bits := List.zipWith xor v w

end Sys2Proof
end

