-- ==== Sys2Proof/Syntax.lean ====
section
/-! DEFINITION. The value types of the command interface (R10, R12), requests (R30), the 17 commands as one inductive
(R64, R65) and the results and error kinds a command ends in (R31, R64, R160). -/

namespace Sys2Proof

/-- The two code families (R3). -/
inductive Family where
  | sevenFour
  | fifteenEleven
deriving DecidableEq, Repr

/-- A Matrix operand is the triple (r, c, rows) of R10. Nothing forces the rows to fit (r, c): an empty matrix and a
ragged one are both expressible, and R80 is checked by the commands. -/
structure Matrix where
  r : Nat
  c : Nat
  rows : List Bits
deriving DecidableEq, Repr

/-- An entry of a Base sequence: `Literal(BitVec)` or `Reference(Nat)` (R12). The index is unbounded (D25). -/
inductive BaseEntry where
  | literal (v : Bits)
  | reference (j : Nat)
deriving DecidableEq, Repr

/-- `CompressedStream` = (bases, deviations, pad) (R12). -/
structure CompressedStream where
  bases : List BaseEntry
  deviations : List Bits
  pad : Bit
deriving DecidableEq, Repr

/-- A value the host can put in a request: every value type of R12. A scalar is any integer, so that the value a Bit
slot may not hold (2 or -1; R66, D27) can be sent and refused. No command has a slot for a Family or a BaseEntry. -/
inductive Operand where
  | scalar (n : Int)
  | bits (v : Bits)
  | matrix (m : Matrix)
  | bytes (d : List Byte)
  | stream (cs : CompressedStream)
  | family (f : Family)
  | baseEntry (e : BaseEntry)
deriving DecidableEq, Repr

/-- The types of operand slots (R64). -/
inductive OperandType where
  | bit
  | bitVec
  | matrix
  | bytes
  | stream
deriving DecidableEq, Repr

/-- A request is the command word and the sequence of operands (R30). -/
structure Request where
  word : Byte
  operands : List Operand
deriving DecidableEq, Repr

/-- The 17 commands by name, without their operands (R65). -/
inductive Command where
  | add
  | mul
  | vmm
  | mvm
  | encode
  | encode74
  | encode1511
  | decode
  | decode74
  | decode1511
  | correct
  | correct74
  | correct1511
  | compress74
  | compress1511
  | decompress74
  | decompress1511
deriving DecidableEq, Repr

/-- One constructor per row of spec/opcode_table.json, carrying the operands R64 gives the command, in request order.
The operands have their types, so every term of `Instr` is well formed in the sense of R66 (a wrong length is well
formed; the commands check lengths). -/
inductive Instr where
  | add (a b : Bit)
  | mul (a b : Bit)
  | vmm (v : Bits) (m : Matrix)
  | mvm (m : Matrix) (v : Bits)
  | encode (message : Bits)
  | encode74 (message : Bits)
  | encode1511 (message : Bits)
  | decode (codeword : Bits)
  | decode74 (codeword : Bits)
  | decode1511 (codeword : Bits)
  | correct (codeword syndrome : Bits)
  | correct74 (codeword syndrome : Bits)
  | correct1511 (codeword syndrome : Bits)
  | compress74 (data : List Byte)
  | compress1511 (data : List Byte)
  | decompress74 (cs : CompressedStream)
  | decompress1511 (cs : CompressedStream)
deriving DecidableEq, Repr

/-- The result of a successful command (R31, R64). `pair` is DECODE's (base, syndrome). -/
inductive Result where
  | bit (b : Bit)
  | bits (v : Bits)
  | pair (base syndrome : Bits)
  | stream (cs : CompressedStream)
  | bytes (d : List Byte)
deriving DecidableEq, Repr

/-- The error kinds of R160. -/
inductive ErrorKind where
  | dimensionMismatch
  | invalidLength
  | unsupportedCodeLength
  | uncorrectableSyndrome
  | illegalCommand
  | malformedStream
deriving DecidableEq, Repr

/-- What a rule computes: a value, or `raise E(info)` (R11). The info is explanatory and recorded nowhere (R161). -/
abbrev Checked (α : Type) := Except ErrorKind α

end Sys2Proof
end

