-- ==== Sys2Proof/WellFormed.lean ====
section
/-! DEFINITION. When a request is well formed (R65, R66): its word is one of the 17 legal words and its operands have
the count and the types of the command's signature (R64). Written from the list of words and the table of
signatures, not from the decoder's field tests, so that the two can be held against each other. -/

namespace Sys2Proof

/-- The signature of R64 for each of the 17 legal command words of R65; `none` for the other 239 words. -/
def signatureOfWord (word : Byte) : Option (List OperandType) :=
  match word.toNat with
  | 0x00 => some [.bit, .bit]
  | 0x10 => some [.bit, .bit]
  | 0x20 => some [.bitVec, .matrix]
  | 0x30 => some [.matrix, .bitVec]
  | 0x40 => some [.bitVec]
  | 0x44 => some [.bitVec]
  | 0x48 => some [.bitVec]
  | 0x50 => some [.bitVec]
  | 0x54 => some [.bitVec]
  | 0x58 => some [.bitVec]
  | 0x60 => some [.bitVec, .bitVec]
  | 0x64 => some [.bitVec, .bitVec]
  | 0x68 => some [.bitVec, .bitVec]
  | 0x74 => some [.bytes]
  | 0x78 => some [.bytes]
  | 0x84 => some [.stream]
  | 0x88 => some [.stream]
  | _ => none

/-- Whether an operand fits a slot (R66): a Bit slot takes the scalars 0 and 1 only (D27). -/
def Operand.hasType : Operand → OperandType → Bool
  | .scalar n, .bit => n == 0 || n == 1
  | .bits _, .bitVec => true
  | .matrix _, .matrix => true
  | .bytes _, .bytes => true
  | .stream _, .stream => true
  | _, _ => false

/-- Whether a sequence of operands has the count and the types of a signature (R66). -/
def operandsHaveTypes : List Operand → List OperandType → Bool
  | [], [] => true
  | o :: os, t :: ts => o.hasType t && operandsHaveTypes os ts
  | _, _ => false

/-- A well-formed request (R65, R66). Wrong lengths are well formed. -/
def Request.wellFormed (r : Request) : Bool :=
  match signatureOfWord r.word with
  | some signature => operandsHaveTypes r.operands signature
  | none => false

end Sys2Proof
end

