-- ==== Sys2Proof/Decode.lean ====
section
/-! DEFINITION. Decoding a request (R60 to R68), total on every word and every sequence of operands, rejecting by
name; and after it the encoder, written from the same rules. -/

namespace Sys2Proof

/-- Why a request is rejected, in the order of R65's checks. Every one is the error kind IllegalCommand. -/
inductive Rejection where
  /-- RSV ≠ 00 (R63). -/
  | reservedBits
  /-- OP is 9 to 15 (R61, R67). -/
  | reservedOp
  /-- FAM is not legal for this OP (R62). -/
  | illegalFamily
  /-- The operands do not match the command's signature in count or in type (R64, R66). -/
  | operandMismatch
deriving DecidableEq, Repr

/-- OP = cmd[7:4] (R60). -/
def opField (word : Byte) : Nat := (word.extractLsb' 4 4).toNat

/-- FAM = cmd[3:2] (R60). -/
def famField (word : Byte) : Nat := (word.extractLsb' 2 2).toNat

/-- RSV = cmd[1:0] (R60). -/
def rsvField (word : Byte) : Nat := (word.extractLsb' 0 2).toNat

/-- OP values 0 to 8 are assigned, 9 to 15 reserved (R61). -/
def reservedOp (op : Nat) : Bool := 9 ≤ op

/-- The command that an OP and a FAM name together, by the tables of R61 and R62; `none` for an illegal pair. -/
def commandOfFields : Nat → Nat → Option Command
  | 0x0, 0b00 => some .add
  | 0x1, 0b00 => some .mul
  | 0x2, 0b00 => some .vmm
  | 0x3, 0b00 => some .mvm
  | 0x4, 0b00 => some .encode
  | 0x4, 0b01 => some .encode74
  | 0x4, 0b10 => some .encode1511
  | 0x5, 0b00 => some .decode
  | 0x5, 0b01 => some .decode74
  | 0x5, 0b10 => some .decode1511
  | 0x6, 0b00 => some .correct
  | 0x6, 0b01 => some .correct74
  | 0x6, 0b10 => some .correct1511
  | 0x7, 0b01 => some .compress74
  | 0x7, 0b10 => some .compress1511
  | 0x8, 0b01 => some .decompress74
  | 0x8, 0b10 => some .decompress1511
  | _, _ => none

/-- Decoding of the command word, before any operand is examined (R65). -/
def decodeWord (word : Byte) : Except Rejection Command :=
  if rsvField word ≠ 0 then .error .reservedBits
  else if reservedOp (opField word) then .error .reservedOp
  else
    match commandOfFields (opField word) (famField word) with
    | some c => .ok c
    | none => .error .illegalFamily

/-- A Bit slot takes the scalar 0 or the scalar 1, and no other value (R66, D27). -/
def bitOfScalar (n : Int) : Option Bit :=
  if n = 0 then some false else if n = 1 then some true else none

/-- The scalar a bit travels as. -/
def scalarOfBit (b : Bit) : Int := if b then 1 else 0

/-- Two scalars that fill two Bit slots. -/
def twoBits (make : Bit → Bit → Instr) (a b : Int) : Option Instr :=
  match bitOfScalar a, bitOfScalar b with
  | some x, some y => some (make x y)
  | _, _ => none

/-- The command applied to its operands, when their count and types match its signature (R64, R66). -/
def Command.withOperands : Command → List Operand → Option Instr
  | .add, [.scalar a, .scalar b] => twoBits .add a b
  | .mul, [.scalar a, .scalar b] => twoBits .mul a b
  | .vmm, [.bits v, .matrix m] => some (.vmm v m)
  | .mvm, [.matrix m, .bits v] => some (.mvm m v)
  | .encode, [.bits u] => some (.encode u)
  | .encode74, [.bits u] => some (.encode74 u)
  | .encode1511, [.bits u] => some (.encode1511 u)
  | .decode, [.bits w] => some (.decode w)
  | .decode74, [.bits w] => some (.decode74 w)
  | .decode1511, [.bits w] => some (.decode1511 w)
  | .correct, [.bits w, .bits s] => some (.correct w s)
  | .correct74, [.bits w, .bits s] => some (.correct74 w s)
  | .correct1511, [.bits w, .bits s] => some (.correct1511 w s)
  | .compress74, [.bytes d] => some (.compress74 d)
  | .compress1511, [.bytes d] => some (.compress1511 d)
  | .decompress74, [.stream cs] => some (.decompress74 cs)
  | .decompress1511, [.stream cs] => some (.decompress1511 cs)
  | _, _ => none

/-- `decode_cmd` of R65: the word's checks first, then the operands' match with the signature. -/
def decode (r : Request) : Except Rejection Instr :=
  match decodeWord r.word with
  | .error e => .error e
  | .ok c =>
    match c.withOperands r.operands with
    | some i => .ok i
    | none => .error .operandMismatch

/-! ### The encoder -/

/-- OP of a command (R61). -/
def Command.op : Command → BitVec 4
  | .add => 0x0
  | .mul => 0x1
  | .vmm => 0x2
  | .mvm => 0x3
  | .encode | .encode74 | .encode1511 => 0x4
  | .decode | .decode74 | .decode1511 => 0x5
  | .correct | .correct74 | .correct1511 => 0x6
  | .compress74 | .compress1511 => 0x7
  | .decompress74 | .decompress1511 => 0x8

/-- FAM of a command (R62): 00 for AUTO or none, 01 for .74, 10 for .1511. -/
def Command.fam : Command → BitVec 2
  | .add | .mul | .vmm | .mvm | .encode | .decode | .correct => 0b00
  | .encode74 | .decode74 | .correct74 | .compress74 | .decompress74 => 0b01
  | .encode1511 | .decode1511 | .correct1511 | .compress1511 | .decompress1511 => 0b10

/-- The command word: OP in [7:4], FAM in [3:2], RSV = 00 in [1:0] (R60). -/
def Command.word (c : Command) : Byte := c.op ++ c.fam ++ (0b00 : BitVec 2)

/-- The command of an instruction. -/
def Instr.command : Instr → Command
  | .add _ _ => .add
  | .mul _ _ => .mul
  | .vmm _ _ => .vmm
  | .mvm _ _ => .mvm
  | .encode _ => .encode
  | .encode74 _ => .encode74
  | .encode1511 _ => .encode1511
  | .decode _ => .decode
  | .decode74 _ => .decode74
  | .decode1511 _ => .decode1511
  | .correct _ _ => .correct
  | .correct74 _ _ => .correct74
  | .correct1511 _ _ => .correct1511
  | .compress74 _ => .compress74
  | .compress1511 _ => .compress1511
  | .decompress74 _ => .decompress74
  | .decompress1511 _ => .decompress1511

/-- The operands of an instruction, in request order (R64). -/
def Instr.operands : Instr → List Operand
  | .add a b | .mul a b => [.scalar (scalarOfBit a), .scalar (scalarOfBit b)]
  | .vmm v m => [.bits v, .matrix m]
  | .mvm m v => [.matrix m, .bits v]
  | .encode u | .encode74 u | .encode1511 u => [.bits u]
  | .decode w | .decode74 w | .decode1511 w => [.bits w]
  | .correct w s | .correct74 w s | .correct1511 w s => [.bits w, .bits s]
  | .compress74 d | .compress1511 d => [.bytes d]
  | .decompress74 cs | .decompress1511 cs => [.stream cs]

/-- The request that carries an instruction (R30, R60, R64). -/
def encode (i : Instr) : Request where
  word := i.command.word
  operands := i.operands

/-! ### The opcode table's words -/

/-- The operands that go with a bare command word where the table gives operands no bits: all zeros, one per slot of
the signature (R64), each of the length at which the command's own length checks pass (DESIGN CHOICE, safe;
notes/assumptions/1.md). -/
def Command.zeroOperands : Command → List Operand
  | .add | .mul => [.scalar 0, .scalar 0]
  | .vmm => [.bits [], .matrix ⟨0, 0, []⟩]
  | .mvm => [.matrix ⟨0, 0, []⟩, .bits []]
  | .encode | .encode74 => [.bits (zeros 4)]
  | .encode1511 => [.bits (zeros 11)]
  | .decode | .decode74 => [.bits (zeros 7)]
  | .decode1511 => [.bits (zeros 15)]
  | .correct | .correct74 => [.bits (zeros 7), .bits (zeros 3)]
  | .correct1511 => [.bits (zeros 15), .bits (zeros 4)]
  | .compress74 | .compress1511 => [.bytes []]
  | .decompress74 | .decompress1511 => [.stream ⟨[], [], false⟩]

/-- The request made of a table word: its low `nbits` bits as the command word, with operands of zeros. -/
def tableRequest (nbits w : Nat) : Request :=
  let word : Byte := BitVec.ofNat 8 (w % 2 ^ nbits)
  match decodeWord word with
  | .ok c => ⟨word, c.zeroOperands⟩
  | .error _ => ⟨word, []⟩

/-- The instruction the decoder reads from a table word; `none` where it rejects. -/
def decodeTableWord (nbits w : Nat) : Option Instr :=
  match decode (tableRequest nbits w) with
  | .ok i => some i
  | .error _ => none

end Sys2Proof
end

