-- ==== Sys2Proof/Config.lean ====
section
/-! DEFINITION. What an implementation fixes before reset (R6, R25): the types of the code tables and of the
capacities. State carries a value of each, so that a statement over all states is a statement over all
configurations; the default tables stand in Machine/Tables.lean. -/

namespace Sys2Proof

/-- Where the k data bits sit in a codeword (R25, R100). -/
inductive Policy where
  | leading
  | trailing
deriving DecidableEq, Repr

/-- `CT(f) = (n, k, G, H, policy)` (R25). -/
structure CodeTable where
  n : Nat
  k : Nat
  G : Matrix
  H : Matrix
  policy : Policy
deriving DecidableEq, Repr

/-- The parameter `CodeTables` (R6): one table per family (R25). -/
structure CodeTables where
  sevenFour : CodeTable
  fifteenEleven : CodeTable
deriving DecidableEq, Repr

/-- The table of a family. -/
def CodeTables.of (t : CodeTables) : Family → CodeTable
  | .sevenFour => t.sevenFour
  | .fifteenEleven => t.fifteenEleven

/-- The OPEN capacity parameters of R6, by name. -/
inductive Capacity where
  | maxVecLen
  | maxMatRows
  | maxMatCols
  | maxStreamBytes
  | maxStreamEntries
deriving DecidableEq, Repr

/-- The values of the capacity parameters; `none` is "no bound", which R6 and D22 allow. -/
structure Capacities where
  maxVecLen : Option Nat
  maxMatRows : Option Nat
  maxMatCols : Option Nat
  maxStreamBytes : Option Nat
  maxStreamEntries : Option Nat
deriving DecidableEq, Repr

/-- The value of one parameter. -/
def Capacities.limit (c : Capacities) : Capacity → Option Nat
  | .maxVecLen => c.maxVecLen
  | .maxMatRows => c.maxMatRows
  | .maxMatCols => c.maxMatCols
  | .maxStreamBytes => c.maxStreamBytes
  | .maxStreamEntries => c.maxStreamEntries

/-- No capacity is bounded (DESIGN CHOICE that D22 allows; notes/assumptions/6.md; unsafe for oversized operands). -/
def Capacities.unbounded : Capacities where
  maxVecLen := none
  maxMatRows := none
  maxMatCols := none
  maxStreamBytes := none
  maxStreamEntries := none

/-- The whole configuration the integrator fixes before reset (R182). -/
structure Config where
  tables : CodeTables
  capacities : Capacities
deriving DecidableEq, Repr

end Sys2Proof
end

