-- ==== Sys2Proof/Machine/Algebra.lean ====
section
/-! DEFINITION. The bit and byte layout (spec/20_memory.md R40) and the GF(2) operations on scalars, vectors and
matrices (spec/00_scope.md R9, R10; spec/40_gf2_engine.md R80 to R84), as functions of their operands alone. -/

namespace Sys2Proof.Machine

/-! ### Bits, vectors and bytes -/

/-- GF(2) addition of scalars: `a ⊕ b` (R81). -/
def gfAdd (a b : Bit) : Bit := xor a b

/-- GF(2) multiplication of scalars: `a ∧ b` (R82). -/
def gfMul (a b : Bit) : Bit := a && b

/-- The sum of a sequence of bits: their XOR, 0 when there is none (R9). -/
def xorSum : Bits → Bit
  | [] => false
  | b :: bs => xor b (xorSum bs)

/-- `flip(v, j)`: v with element j inverted (R7). -/
def flipBit : Bits → Nat → Bits
  | [], _ => []
  | b :: bs, 0 => (!b) :: bs
  | b :: bs, j + 1 => b :: flipBit bs j

/-- `v[j]`. The rules only read elements inside the vector; outside it the model reads 0 (notes/assumptions/16.md). -/
def bitAt (v : Bits) (j : Nat) : Bit := v.getD j false

/-- `v[a:b)`, the half-open slice (R7). -/
def slice (v : Bits) (a b : Nat) : Bits := (v.drop a).take (b - a)

/-- `byte_to_bits(b)`: element i is `(b >> (7 − i)) & 1`, so element 0 is the most significant bit (R40). -/
def byteToBits (b : Byte) : Bits := (List.range 8).map fun i => b.getLsbD (7 - i)

/-- The number a bit vector spells, element 0 most significant. -/
def natOfBits (v : Bits) : Nat := v.foldl (fun acc b => 2 * acc + b.toNat) 0

/-- `bits_to_byte(v) = Σ v[i] · 2^(7 − i)`, for eight bits (R40). -/
def bitsToByte (v : Bits) : Byte := BitVec.ofNat 8 (natOfBits v)

/-! ### Matrices -/

/-- Matrix well-formedness (R80): `len(rows) = r` and every row has length c. r = 0 and c = 0 are legal. -/
def matrixOk (m : Matrix) : Bool := m.rows.length == m.r && m.rows.all fun row => row.length == m.c

/-- `col(M, j)`: the vector whose element i is `M[i][j]` (R10). -/
def col (m : Matrix) (j : Nat) : Bits := m.rows.map fun row => bitAt row j

/-- The columns of M, left to right. -/
def columns (m : Matrix) : List Bits := (List.range m.c).map (col m)

/-- The XOR-sum of the rows selected by v, added to `out`: the loop of R83. -/
def xorSelected : Bits → List Bits → Bits → Bits
  | b :: v, row :: rows, out => xorSelected v rows (if b then xorBits out row else out)
  | _, _, out => out

/-- The mod-2 dot product of a row with a vector: the inner sum of R84. -/
def dot (row v : Bits) : Bit := xorSum (List.zipWith (· && ·) row v)

/-- `vectorTimesMatrix(v, M)` (R83): well-formedness first, then the length, then the sum of the selected rows. -/
def vmm (v : Bits) (m : Matrix) : Checked Bits :=
  if !matrixOk m then .error .dimensionMismatch
  else if v.length ≠ m.r then .error .dimensionMismatch
  else .ok (xorSelected v m.rows (zeros m.c))

/-- `matrixTimesVector(M, v)` (R84): well-formedness first, then the length, then one dot product per row. -/
def mvm (m : Matrix) (v : Bits) : Checked Bits :=
  if !matrixOk m then .error .dimensionMismatch
  else if v.length ≠ m.c then .error .dimensionMismatch
  else .ok (m.rows.map fun row => dot row v)

end Sys2Proof.Machine
end

