-- ==== Sys2Proof/Machine/Tables.lean ====
section
/-! DEFINITION. The two code families' parameters (R3, R6), the default code tables (R101, R102), the construction
both come from (R103), and the validity of a table (R105). -/

namespace Sys2Proof.Machine

/-! ### Family parameters -/

/-- n(f), the block length (R3). -/
def blockLen : Family → Nat
  | .sevenFour => 7
  | .fifteenEleven => 15

/-- k(f), the message length (R3). -/
def messageLen : Family → Nat
  | .sevenFour => 4
  | .fifteenEleven => 11

/-- m(f) = n(f) − k(f), the syndrome length (R6). -/
def syndromeLen (f : Family) : Nat := blockLen f - messageLen f

/-- The deviation width n(f) − k(f) + 1: syndrome plus one carry bit (R6, R131). -/
def deviationLen (f : Family) : Nat := syndromeLen f + 1

/-- w(f), the input bits per chunk: the window's n bits and the carry (R6, R42). -/
def chunkLen (f : Family) : Nat := blockLen f + 1

/-! ### Default tables -/

/-- A bit vector from the digits a rule prints. -/
def bitsOfDigits (ds : List Nat) : Bits := ds.map (· == 1)

/-- A matrix with c columns from printed rows. -/
def matrixOfDigits (c : Nat) (rows : List (List Nat)) : Matrix where
  r := rows.length
  c := c
  rows := rows.map bitsOfDigits

/-- The default table of SevenFour, digit by digit as R101 prints it (DESIGN CHOICE of the spec, D7 and D8;
notes/assumptions/5.md). -/
def defaultSevenFour : CodeTable where
  n := 7
  k := 4
  policy := .leading
  G := matrixOfDigits 7
    [[1,0,0,0,0,1,1],
     [0,1,0,0,1,0,1],
     [0,0,1,0,1,1,0],
     [0,0,0,1,1,1,1]]
  H := matrixOfDigits 7
    [[0,1,1,1,1,0,0],
     [1,0,1,1,0,1,0],
     [1,1,0,1,0,0,1]]

/-- The default table of FifteenEleven, digit by digit as R102 prints it (DESIGN CHOICE of the spec, D7 and D8;
notes/assumptions/5.md). -/
def defaultFifteenEleven : CodeTable where
  n := 15
  k := 11
  policy := .leading
  G := matrixOfDigits 15
    [[1,0,0,0,0,0,0,0,0,0,0,0,0,1,1],
     [0,1,0,0,0,0,0,0,0,0,0,0,1,0,1],
     [0,0,1,0,0,0,0,0,0,0,0,0,1,1,0],
     [0,0,0,1,0,0,0,0,0,0,0,0,1,1,1],
     [0,0,0,0,1,0,0,0,0,0,0,1,0,0,1],
     [0,0,0,0,0,1,0,0,0,0,0,1,0,1,0],
     [0,0,0,0,0,0,1,0,0,0,0,1,0,1,1],
     [0,0,0,0,0,0,0,1,0,0,0,1,1,0,0],
     [0,0,0,0,0,0,0,0,1,0,0,1,1,0,1],
     [0,0,0,0,0,0,0,0,0,1,0,1,1,1,0],
     [0,0,0,0,0,0,0,0,0,0,1,1,1,1,1]]
  H := matrixOfDigits 15
    [[0,0,0,0,1,1,1,1,1,1,1,1,0,0,0],
     [0,1,1,1,0,0,0,1,1,1,1,0,1,0,0],
     [1,0,1,1,0,1,1,0,0,1,1,0,0,1,0],
     [1,1,0,1,1,0,1,0,1,0,1,0,0,0,1]]

/-- The default value of the parameter `CodeTables` (R6). -/
def defaultTables : CodeTables where
  sevenFour := defaultSevenFour
  fifteenEleven := defaultFifteenEleven

/-- The configuration of `State.reset`: the default tables (R101, R102; notes/assumptions/5.md) and no capacity bounds
(D22; notes/assumptions/6.md). -/
def defaultConfig : Config where
  tables := defaultTables
  capacities := .unbounded

/-! ### The construction of R103 -/

/-- Every bit vector of a length, in increasing numeric value with element 0 most significant. -/
def allBits : Nat → List Bits
  | 0 => [[]]
  | len + 1 => (allBits len).map (false :: ·) ++ (allBits len).map (true :: ·)

/-- The unit vector with a 1 at position i. -/
def unitBits (len i : Nat) : Bits := (List.range len).map (· == i)

/-- The matrix P of R103: the m-bit vectors of Hamming weight at least 2, in increasing numeric value. -/
def parityRows (m : Nat) : List Bits := (allBits m).filter fun v => 2 ≤ v.count true

/-- The table that R103 constructs for (n, k): `G = [I_k | P]` and `H = [Pᵀ | I_m]` with m = n − k. -/
def constructedTable (n k : Nat) : CodeTable where
  n := n
  k := k
  policy := .leading
  G := ⟨k, n, (parityRows (n - k)).zipIdx.map fun (p, i) => unitBits k i ++ p⟩
  H := ⟨n - k, n, (List.range (n - k)).map fun t =>
    (parityRows (n - k)).map (fun p => bitAt p t) ++ unitBits (n - k) t⟩

/-! ### Data positions and validity -/

/-- DP(f) for a policy: `[0, …, k−1]` for Leading and `[n−k, …, n−1]` for Trailing (R100). -/
def dataPositions (f : Family) : Policy → List Nat
  | .leading => List.range (messageLen f)
  | .trailing => (List.range (messageLen f)).map fun i => i + syndromeLen f

/-- V1: (n, k) is the family's, G is a well-formed k×n matrix and H a well-formed (n−k)×n matrix (R105). -/
def shapesOk (f : Family) (t : CodeTable) : Bool :=
  t.n == blockLen f && t.k == messageLen f &&
  matrixOk t.G && t.G.r == messageLen f && t.G.c == blockLen f &&
  matrixOk t.H && t.H.r == syndromeLen f && t.H.c == blockLen f

/-- V2: the columns of H are pairwise distinct and non-zero (R105). -/
def columnsOk (f : Family) (t : CodeTable) : Bool :=
  decide (columns t.H).Nodup && (columns t.H).all (· != zeros (syndromeLen f))

/-- V3: `MVM(H, row) = zeros(m)` for every row of G (R105). -/
def orthogonalOk (f : Family) (t : CodeTable) : Bool :=
  t.G.rows.all fun row => decide (mvm t.H row = .ok (zeros (syndromeLen f)))

/-- V4: G has full row rank k: no sum of a non-empty choice of its rows is zero (R105). -/
def fullRankOk (f : Family) (t : CodeTable) : Bool :=
  (allBits (messageLen f)).all fun u =>
    u == zeros (messageLen f) || xorSelected u t.G.rows (zeros (blockLen f)) != zeros (blockLen f)

/-- V5: the identity sub-block at the data positions: `G[i][DP(f)[j]] = (i == j)` for all i, j < k (R105). -/
def identityOk (f : Family) (t : CodeTable) : Bool :=
  (List.range (messageLen f)).all fun i =>
    ((dataPositions f t.policy).map fun p => bitAt (t.G.rows.getD i []) p) == unitBits (messageLen f) i

/-- Validity of the table of family f (R105): V1 to V5. -/
def tableValid (f : Family) (t : CodeTable) : Bool :=
  shapesOk f t && columnsOk f t && orthogonalOk f t && fullRankOk f t && identityOk f t

/-- Both tables are valid: the configuration check of R180 step 1. -/
def tablesValid (t : CodeTables) : Bool :=
  tableValid .sevenFour t.sevenFour && tableValid .fifteenEleven t.fifteenEleven

end Sys2Proof.Machine
end

