-- ==== Sys2Proof/Machine/State.lean ====
section
/-! DEFINITION. The machine's state (spec/10_state.md), the host's actions and what is delivered to the host, the
reasons a step can stop, and the state after reset (R28, R180). -/

namespace Sys2Proof.Machine

/-- The dedup table DT: base value → its position in the Base sequence (R26, R134). Keys are distinct because an
insertion only follows a failed lookup. -/
abbrev DedupTable := List (Bits × Nat)

/-- What the host can do to the engine, one action between commands (R23, R30, R32, R180, R181). -/
inductive HostAction where
  /-- Issue a request (R30). -/
  | request (r : Request)
  /-- Read STATUS over the host interface (R23, R44). -/
  | readStatus
  /-- Try to write STATUS, which is ignored (R23). -/
  | writeStatus (b : Byte)
  /-- Reset the engine (R180). -/
  | reset
deriving DecidableEq, Repr

/-- A response is `Ok(result)` or `Fault(code)` (R31). -/
inductive Response where
  | ok (r : Result)
  | fault (code : BitVec 4)
deriving DecidableEq, Repr

/-- What the host receives: the response to a request (R31), or the value of a STATUS read (R23). -/
inductive Delivery where
  | response (r : Response)
  | status (b : Byte)
deriving DecidableEq, Repr

/-- Reasons the machine stops with a fault: there are none. Every error kind of R160 is a response after which the
engine takes the next request (R162, R164), so it is a next state (notes/assumptions/11.md; safe: nothing the spec gives
an effect stops here). -/
inductive Fault where
deriving DecidableEq, Repr

/-- Reasons a step has no meaning. -/
inductive Refusal where
  /-- Raised by `exec` for an instruction that has no meaning yet; safe. No arm raises it. -/
  | notModelled (mnemonic : String)
  /-- Raised for an operand, or a DECOMPRESS output, past a capacity parameter: the spec gives it no meaning (R6, R138,
  D22); safe: a stop where a real engine may go on. -/
  | overCapacity (c : Capacity)
  /-- Raised by reset when a code table fails V1 to V5: the spec has no engine for such a configuration (R180); safe. -/
  | invalidConfiguration
deriving DecidableEq, Repr

/-- Everything the spec gives the machine. Between two commands the engine's own state is STATUS alone (R27); the
tables and the capacities are its configuration (R25, R6); the channels are the interfaces of R30 and R31. -/
structure State where
  /-- STATUS (R23). A bit vector, since the host reads it whole. -/
  status : Byte
  /-- The code tables CT(f) (R25). No command writes them. -/
  tables : CodeTables
  /-- The capacity parameters (R6). -/
  capacities : Capacities
  /-- The dedup table DT (R26); `none`: it does not exist, as between any two commands. -/
  dedup : Option DedupTable
  /-- The model's own: the host's actions that the engine has not taken yet, oldest first (notes/assumptions/3.md). -/
  inbox : List HostAction
  /-- The model's own: what has been delivered to the host, oldest first (notes/assumptions/4.md). -/
  outbox : List Delivery
deriving DecidableEq, Repr

/-- The state right after reset of an engine with a given configuration (R28, R180 step 2): STATUS = 0x00, no dedup
table, nothing pending and nothing delivered. -/
def State.initial (c : Config) : State where
  status := 0x00
  tables := c.tables
  capacities := c.capacities
  dedup := none
  inbox := []
  outbox := []

/-- The machine right after reset (R28), with the default configuration. -/
def State.reset : State := State.initial defaultConfig

end Sys2Proof.Machine
end

