-- ==== Sys2Proof/Machine/Flags.lean ====
section
/-! DEFINITION. The fields of STATUS (spec/10_state.md R23, R24) and the error codes (spec/60_exceptions.md R160). The
engine has no flags, condition codes or predicates (R22): STATUS.ERR and STATUS.DONE are all there is. -/

namespace Sys2Proof.Machine

/-- code(E) of R160. -/
def errorCode : ErrorKind → BitVec 4
  | .dimensionMismatch => 1
  | .invalidLength => 2
  | .unsupportedCodeLength => 3
  | .uncorrectableSyndrome => 4
  | .illegalCommand => 5
  | .malformedStream => 6

/-- STATUS.ERR = STATUS[3:0] (R23). -/
def statusErr (status : Byte) : BitVec 4 := status.extractLsb' 0 4

/-- STATUS.DONE = STATUS[4] (R23). -/
def statusDone (status : Byte) : Bit := status.getLsbD 4

/-- STATUS[7:5], reserved and hardwired 0 (R23). -/
def statusReserved (status : Byte) : BitVec 3 := status.extractLsb' 5 3

/-- The STATUS a completing command writes: reserved 000, DONE 1, and ERR (R24). -/
def completionStatus (err : BitVec 4) : Byte := (0b000 : BitVec 3) ++ (0b1 : BitVec 1) ++ err

/-- The values STATUS can hold (R23): reserved bits 0, ERR at most 6, and no error before any command has completed
(DONE is 1 once any command has). -/
def statusLegal (status : Byte) : Bool :=
  statusReserved status == 0 && decide ((statusErr status).toNat ≤ 6) &&
  (statusDone status || statusErr status == 0)

end Sys2Proof.Machine
end

