-- ==== Sys2Proof/Machine/Operands.lean ====
section
/-! DEFINITION. What commands check of their operands before they compute: the family selection by length of R106, and
the capacity parameters of R6. -/

namespace Sys2Proof.Machine

/-- `select(sel, L, dim)` of R106: `none` is AUTO, which selects by the operand's length; an explicit family checks
it. `dim` is k for a message and n for a codeword. -/
def select (sel : Option Family) (len : Nat) (dim : Family → Nat) : Checked Family :=
  match sel with
  | none =>
    if len = dim .sevenFour then .ok .sevenFour
    else if len = dim .fifteenEleven then .ok .fifteenEleven
    else .error .unsupportedCodeLength
  | some f => if len ≠ dim f then .error .invalidLength else .ok f

/-- How much of each capacity a command's operands take. -/
abbrev Load := List (Capacity × Nat)

/-- The load of VMM and MVM (R6): the bit-vector operand's length, and the matrix operand's rows(M) and cols(M) as the
operand states them (R10; notes/assumptions/7.md). -/
def linearLoad (v : Bits) (m : Matrix) : Load :=
  [(.maxVecLen, v.length), (.maxMatRows, m.r), (.maxMatCols, m.c)]

/-- The load of a byte stream (R6): the COMPRESS input before padding, or the DECOMPRESS output. -/
def bytesLoad (d : List Byte) : Load := [(.maxStreamBytes, d.length)]

/-- The load of a CompressedStream operand (R6): its entries, in either sequence (notes/assumptions/7.md). -/
def streamLoad (cs : CompressedStream) : Load :=
  [(.maxStreamEntries, cs.bases.length), (.maxStreamEntries, cs.deviations.length)]

/-- Whether an amount is past a limit. -/
def pastLimit (limit : Option Nat) (amount : Nat) : Bool :=
  match limit with
  | none => false
  | some bound => bound < amount

/-- The first capacity that a load exceeds, if any. -/
def exceeded (c : Capacities) : Load → Option Capacity
  | [] => none
  | (name, amount) :: rest => if pastLimit (c.limit name) amount then some name else exceeded c rest

end Sys2Proof.Machine
end

