-- ==== Sys2Proof/Machine/Code.lean ====
section
/-! DEFINITION. The linear block code (spec/41_block_code.md), as functions of the code tables and the operands: the
data positions (R100), the syndrome (R104), syndrome-to-error resolution (R107), and the three operations that the
ENCODE, DECODE and CORRECT commands and the GDD pipeline share (R110 to R112). -/

namespace Sys2Proof.Machine

/-- `data(f, c)`: the elements of c at DP(f), in increasing position order (R100). -/
def dataBits (tables : CodeTables) (f : Family) (c : Bits) : Bits :=
  (dataPositions f (tables.of f).policy).map (bitAt c)

/-- `syn(f, w) = MVM(H(f), w)` (R104). -/
def syndrome (tables : CodeTables) (f : Family) (w : Bits) : Checked Bits := mvm (tables.of f).H w

/-- The first column of H(f), scanned left to right, that equals the syndrome (R107). -/
def errorPosition (tables : CodeTables) (f : Family) (s : Bits) : Option Nat :=
  (List.range (blockLen f)).find? fun j => col (tables.of f).H j == s

/-- `correct_core(f, w, s)` (R107): unchanged for the zero syndrome, else the bit the syndrome names is flipped; no
matching column is UncorrectableSyndrome, which a valid table excludes. -/
def correctCore (tables : CodeTables) (f : Family) (w s : Bits) : Checked Bits :=
  if s = zeros (syndromeLen f) then .ok w
  else
    match errorPosition tables f s with
    | some j => .ok (flipBit w j)
    | none => .error .uncorrectableSyndrome

/-- ENCODE (R110): select by the message's length, then `VMM(message, G(f))`. -/
def encodeBlock (tables : CodeTables) (sel : Option Family) (message : Bits) : Checked Bits := do
  let f ← select sel message.length messageLen
  vmm message (tables.of f).G

/-- DECODE (R111): the data bits of the corrected word, and the syndrome before correction. -/
def decodeBlock (tables : CodeTables) (sel : Option Family) (codeword : Bits) : Checked (Bits × Bits) := do
  let f ← select sel codeword.length blockLen
  let s ← syndrome tables f codeword
  let c ← correctCore tables f codeword s
  return (dataBits tables f c, s)

/-- CORRECT (R112): select by the codeword's length, then the syndrome's length, then resolve the syndrome. -/
def correctBlock (tables : CodeTables) (sel : Option Family) (codeword s : Bits) : Checked Bits := do
  let f ← select sel codeword.length blockLen
  if s.length ≠ syndromeLen f then throw .invalidLength
  correctCore tables f codeword s

end Sys2Proof.Machine
end

