-- ==== Sys2Proof/Machine/Ops.lean ====
section
/-! DEFINITION. The named operations over the state: completing a command with a result or with a fault (R24, R31,
R162), the refusal of an operand past a capacity (R6), and the dedup table (R26, R134). -/

namespace Sys2Proof.Machine

/-- Append to what has been delivered to the host. -/
def State.deliver (s : State) (d : Delivery) : State := { s with outbox := s.outbox ++ [d] }

/-- A command returns a result (R24, R31): ERR is 0, DONE is 1, the response is `Ok(result)`. -/
def State.returnOk (s : State) (r : Result) : State :=
  { s with status := completionStatus 0 }.deliver (.response (.ok r))

/-- FAULT ENTRY (R162), the one operation that takes an error: the command is abandoned with no result, STATUS gets
ERR = code(E) and DONE = 1, and the response is `Fault(code(E))`. No handler, vector or saved state exists, and
there is no return from it (R164): the engine is ready for the next request. COMPRESS's discarding of its table is
`State.closeDedup`. -/
def State.raise (s : State) (e : ErrorKind) : State :=
  { s with status := completionStatus (errorCode e) }.deliver (.response (.fault (errorCode e)))

/-- A command completes with what its rule computed: STATUS is written once and one response is given (R24). -/
def State.finish (s : State) : Checked Result → State
  | .ok r => s.returnOk r
  | .error e => s.raise e

/-- Go on to `next` unless a capacity is exceeded, which has no meaning (R6, D22). -/
def State.within (s : State) (load : Load) (next : Host.Outcome State Fault Refusal) :
    Host.Outcome State Fault Refusal :=
  match exceeded s.capacities load with
  | some c => .refused (.overCapacity c)
  | none => next

/-! ### The dedup table -/

/-- COMPRESS starts: DT is empty (R26). -/
def State.openDedup (s : State) : State := { s with dedup := some [] }

/-- COMPRESS ends, with or without a fault: DT is discarded (R26, R162). -/
def State.closeDedup (s : State) : State := { s with dedup := none }

/-- `DT[b]`, if b is in DT (R134). -/
def State.dedupLookup (s : State) (b : Bits) : Option Nat := (s.dedup.getD []).lookup b

/-- `DT[b] <- j` (R134). -/
def State.dedupInsert (s : State) (b : Bits) (j : Nat) : State :=
  { s with dedup := some ((s.dedup.getD []) ++ [(b, j)]) }

end Sys2Proof.Machine
end

