-- ==== Sys2Proof/Machine/Block.lean ====
section
/-! DEFINITION. The block-code commands ENCODE, DECODE and CORRECT, each with FAM = AUTO, .74 and .1511
(spec/41_block_code.md R110 to R112; spec/30_encoding.md R62). -/

namespace Sys2Proof.Machine

/-- ENCODE as a command (R110), for a family selector. -/
def runEncode (sel : Option Family) (message : Bits) (s : State) : State :=
  s.finish ((encodeBlock s.tables sel message).map .bits)

/-- DECODE as a command (R111), for a family selector. -/
def runDecode (sel : Option Family) (codeword : Bits) (s : State) : State :=
  s.finish ((decodeBlock s.tables sel codeword).map fun out => .pair out.1 out.2)

/-- CORRECT as a command (R112), for a family selector. -/
def runCorrect (sel : Option Family) (codeword syn : Bits) (s : State) : State :=
  s.finish ((correctBlock s.tables sel codeword syn).map .bits)

/-- ENCODE, FAM = AUTO (R110, R106). -/
def execEncode (message : Bits) (s : State) : Host.Outcome State Fault Refusal :=
  .next (runEncode none message s)

/-- ENCODE.74 (R110). -/
def execEncode74 (message : Bits) (s : State) : Host.Outcome State Fault Refusal :=
  .next (runEncode (some .sevenFour) message s)

/-- ENCODE.1511 (R110). -/
def execEncode1511 (message : Bits) (s : State) : Host.Outcome State Fault Refusal :=
  .next (runEncode (some .fifteenEleven) message s)

/-- DECODE, FAM = AUTO (R111, R106). -/
def execDecode (codeword : Bits) (s : State) : Host.Outcome State Fault Refusal :=
  .next (runDecode none codeword s)

/-- DECODE.74 (R111). -/
def execDecode74 (codeword : Bits) (s : State) : Host.Outcome State Fault Refusal :=
  .next (runDecode (some .sevenFour) codeword s)

/-- DECODE.1511 (R111). -/
def execDecode1511 (codeword : Bits) (s : State) : Host.Outcome State Fault Refusal :=
  .next (runDecode (some .fifteenEleven) codeword s)

/-- CORRECT, FAM = AUTO (R112, R106). -/
def execCorrect (codeword syn : Bits) (s : State) : Host.Outcome State Fault Refusal :=
  .next (runCorrect none codeword syn s)

/-- CORRECT.74 (R112). -/
def execCorrect74 (codeword syn : Bits) (s : State) : Host.Outcome State Fault Refusal :=
  .next (runCorrect (some .sevenFour) codeword syn s)

/-- CORRECT.1511 (R112). -/
def execCorrect1511 (codeword syn : Bits) (s : State) : Host.Outcome State Fault Refusal :=
  .next (runCorrect (some .fifteenEleven) codeword syn s)

end Sys2Proof.Machine
end

