-- ==== Sys2Proof/Machine/Gf2.lean ====
section
/-! DEFINITION. The GF(2) commands ADD, MUL, VMM and MVM (spec/40_gf2_engine.md R81 to R84). -/

namespace Sys2Proof.Machine

/-- ADD (R81): `return a ⊕ b`. -/
def execAdd (a b : Bit) (s : State) : Host.Outcome State Fault Refusal :=
  .next (s.finish (.ok (.bit (gfAdd a b))))

/-- MUL (R82): `return a ∧ b`. -/
def execMul (a b : Bit) (s : State) : Host.Outcome State Fault Refusal :=
  .next (s.finish (.ok (.bit (gfMul a b))))

/-- VMM (R83): row vector times matrix. -/
def execVmm (v : Bits) (m : Matrix) (s : State) : Host.Outcome State Fault Refusal :=
  s.within (linearLoad v m) (.next (s.finish ((vmm v m).map .bits)))

/-- MVM (R84): matrix times column vector. -/
def execMvm (m : Matrix) (v : Bits) (s : State) : Host.Outcome State Fault Refusal :=
  s.within (linearLoad v m) (.next (s.finish ((mvm m v).map .bits)))

end Sys2Proof.Machine
end

