-- ==== Sys2Proof/Machine/Gdd.lean ====
section
/-! DEFINITION. The parts of the GDD pipeline (spec/42_gdd_pipeline.md and spec/20_memory.md R41 to R43): chunking,
padding and deduplication for COMPRESS (R130 to R134, R138), validation and reconstruction for DECOMPRESS (R136, R137,
R139). -/

namespace Sys2Proof.Machine

/-! ### Chunks -/

/-- The chunks of a byte stream (R41): one byte each for SevenFour, two for FifteenEleven with the earlier byte first.
A padded FifteenEleven stream has no byte left over. -/
def chunkBits : Family → List Byte → List Bits
  | .sevenFour, d => d.map byteToBits
  | .fifteenEleven, a :: b :: d => (byteToBits a ++ byteToBits b) :: chunkBits .fifteenEleven d
  | .fifteenEleven, _ => []

/-- `chunks(f, d)` (R130): each chunk's code window `x[0:n)` and carry bit `x[n]` (R42). -/
def chunks (f : Family) (d : List Byte) : List (Bits × Bit) :=
  (chunkBits f d).map fun x => (slice x 0 (blockLen f), bitAt x (blockLen f))

/-- The bytes of a reconstructed chunk, in output order (R43). -/
def bytesOfChunk : Family → Bits → List Byte
  | .sevenFour, y => [bitsToByte y]
  | .fifteenEleven, y => [bitsToByte (slice y 0 8), bitsToByte (slice y 8 16)]

/-- Padding (R132, R135): one 0x00 byte appended to a FifteenEleven input of odd length, and the pad flag. -/
def padInput : Family → List Byte → List Byte × Bit
  | .sevenFour, d => (d, false)
  | .fifteenEleven, d => if d.length % 2 = 1 then (d ++ [0x00], true) else (d, false)

/-! ### Compression -/

/-- What COMPRESS has emitted so far: entry i of both sequences comes from chunk i (R133). -/
structure Emitted where
  bases : List BaseEntry
  deviations : List Bits
deriving DecidableEq, Repr

/-- Append one base entry and one deviation (R133). -/
def Emitted.push (out : Emitted) (e : BaseEntry) (dev : Bits) : Emitted where
  bases := out.bases ++ [e]
  deviations := out.deviations ++ [dev]

/-- The dedup step of R134 for a decoded base and its deviation: a known base gives a Reference to its first position,
a new one a Literal that DT then records. The deviation is always literal. -/
def dedupStep (b dev : Bits) (out : Emitted) (s : State) : Emitted × State :=
  match s.dedupLookup b with
  | some j => (out.push (.reference j) dev, s)
  | none => (out.push (.literal b) dev, s.dedupInsert b out.bases.length)

/-- The loop of R138 over the chunks, in increasing order (R133). DT is the state's; the first error ends the loop and
what was emitted is dropped (R162). -/
def compressLoop (f : Family) : List (Bits × Bit) → Emitted → State → Checked Emitted × State
  | [], out, s => (.ok out, s)
  | (w, carry) :: rest, out, s =>
    match decodeBlock s.tables (some f) w with
    | .error e => (.error e, s)
    | .ok (b, syn) =>
      let (out', s') := dedupStep b (syn ++ [carry]) out s
      compressLoop f rest out' s'

/-- COMPRESS for a family (R138): pad, open DT, process the chunks, discard DT, and answer. -/
def compress (f : Family) (data : List Byte) (s : State) : State :=
  let (padded, pad) := padInput f data
  let (outcome, s') := compressLoop f (chunks f padded) ⟨[], []⟩ s.openDedup
  s'.closeDedup.finish (outcome.map fun out => .stream ⟨out.bases, out.deviations, pad⟩)

/-! ### Decompression -/

/-- The literal an entry stands for (R136): its own vector, or that of the literal it points at. A position out of
range and a reference to a reference are malformed. -/
def resolveBase (bases : List BaseEntry) : BaseEntry → Checked Bits
  | .literal v => .ok v
  | .reference j =>
    match bases[j]? with
    | some (.literal v) => .ok v
    | _ => .error .malformedStream

/-- The loop of R136 over the entries, in increasing order: resolve the base, then the literal's width, then the
deviation's width. It returns the literals. -/
def validateEntries (f : Family) (bases : List BaseEntry) : List BaseEntry → List Bits → Checked (List Bits)
  | e :: es, dev :: devs => do
    let lit ← resolveBase bases e
    if lit.length ≠ messageLen f then throw .invalidLength
    if dev.length ≠ deviationLen f then throw .malformedStream
    let lits ← validateEntries f bases es devs
    return lit :: lits
  | _, _ => .ok []

/-- `validate(f, cs)` (R136): the lengths, the pad flag, then the entries; the first failing check is the one
raised. -/
def validateStream (f : Family) (cs : CompressedStream) : Checked (List Bits) :=
  if cs.bases.length ≠ cs.deviations.length then .error .malformedStream
  else if cs.pad = true ∧ f = .sevenFour then .error .malformedStream
  else if cs.pad = true ∧ f = .fifteenEleven ∧ cs.bases.length = 0 then .error .malformedStream
  else validateEntries f cs.bases cs.bases cs.deviations

/-- Entry reconstruction (R137): re-encode the literal, replay the syndrome part of the deviation, append the carry. -/
def rebuildEntry (tables : CodeTables) (f : Family) (lit dev : Bits) : Checked Bits := do
  let c ← encodeBlock tables (some f) lit
  let y ← correctCore tables f c (slice dev 0 (syndromeLen f))
  return y ++ [bitAt dev (syndromeLen f)]

/-- The output loop of R139: the bytes of every entry, in entry order (R43). -/
def rebuildEntries (tables : CodeTables) (f : Family) : List Bits → List Bits → Checked (List Byte)
  | lit :: lits, dev :: devs => do
    let y ← rebuildEntry tables f lit dev
    let rest ← rebuildEntries tables f lits devs
    return bytesOfChunk f y ++ rest
  | _, _ => .ok []

/-- DECOMPRESS for a family (R139): validate, rebuild, and drop the last byte when the pad flag is set, whatever its
value (D26). -/
def decompress (tables : CodeTables) (f : Family) (cs : CompressedStream) : Checked (List Byte) := do
  let lits ← validateStream f cs
  let out ← rebuildEntries tables f lits cs.deviations
  return if cs.pad then out.dropLast else out

/-- The load of a DECOMPRESS output; a faulting one has no output (R6; notes/assumptions/8.md). -/
def outputLoad : Checked (List Byte) → Load
  | .ok d => bytesLoad d
  | .error _ => []

/-- DECOMPRESS as a command: the operand's entries and then the output's bytes against the capacities (R6), and the
answer. -/
def runDecompress (f : Family) (cs : CompressedStream) (s : State) : Host.Outcome State Fault Refusal :=
  let out := decompress s.tables f cs
  s.within (streamLoad cs ++ outputLoad out) (.next (s.finish (out.map .bytes)))

end Sys2Proof.Machine
end

