-- ==== Sys2Proof/Machine/Pipeline.lean ====
section
/-! DEFINITION. The pipeline commands COMPRESS and DECOMPRESS, for each family (spec/42_gdd_pipeline.md R138, R139). -/

namespace Sys2Proof.Machine

/-- COMPRESS.74 (R138). -/
def execCompress74 (data : List Byte) (s : State) : Host.Outcome State Fault Refusal :=
  s.within (bytesLoad data) (.next (compress .sevenFour data s))

/-- COMPRESS.1511 (R138). -/
def execCompress1511 (data : List Byte) (s : State) : Host.Outcome State Fault Refusal :=
  s.within (bytesLoad data) (.next (compress .fifteenEleven data s))

/-- DECOMPRESS.74 (R139). -/
def execDecompress74 (cs : CompressedStream) (s : State) : Host.Outcome State Fault Refusal :=
  runDecompress .sevenFour cs s

/-- DECOMPRESS.1511 (R139). -/
def execDecompress1511 (cs : CompressedStream) (s : State) : Host.Outcome State Fault Refusal :=
  runDecompress .fifteenEleven cs s

end Sys2Proof.Machine
end

