-- ==== Sys2Proof/Machine/Dispatch.lean ====
section
/-! DEFINITION. The dispatch of an instruction to its meaning: one arm per constructor of `Instr` (R61, R65). -/

namespace Sys2Proof.Machine

def exec (i : Instr) (s : State) : Host.Outcome State Fault Refusal :=
  match i with
  | .add a b => Sys2Proof.Machine.execAdd a b s
  | .mul a b => Sys2Proof.Machine.execMul a b s
  | .vmm v m => Sys2Proof.Machine.execVmm v m s
  | .mvm m v => Sys2Proof.Machine.execMvm m v s
  | .encode u => Sys2Proof.Machine.execEncode u s
  | .encode74 u => Sys2Proof.Machine.execEncode74 u s
  | .encode1511 u => Sys2Proof.Machine.execEncode1511 u s
  | .decode w => Sys2Proof.Machine.execDecode w s
  | .decode74 w => Sys2Proof.Machine.execDecode74 w s
  | .decode1511 w => Sys2Proof.Machine.execDecode1511 w s
  | .correct w e => Sys2Proof.Machine.execCorrect w e s
  | .correct74 w e => Sys2Proof.Machine.execCorrect74 w e s
  | .correct1511 w e => Sys2Proof.Machine.execCorrect1511 w e s
  | .compress74 d => Sys2Proof.Machine.execCompress74 d s
  | .compress1511 d => Sys2Proof.Machine.execCompress1511 d s
  | .decompress74 cs => Sys2Proof.Machine.execDecompress74 cs s
  | .decompress1511 cs => Sys2Proof.Machine.execDecompress1511 cs s

end Sys2Proof.Machine
end

