-- ==== Sys2Proof/Machine/Channel.lean ====
section
/-! DEFINITION. The engine's interfaces: taking a request (R30, R65, R67), the STATUS port (R23), reset (R180), and the
order in which the host's actions are taken (R32, R50). -/

namespace Sys2Proof.Machine

/-- One request, answered whole (R29, R73 `engine_step`): decode it and run the instruction; a rejected request raises
IllegalCommand and has no other effect (R65 to R67). -/
def answerRequest (r : Request) (s : State) : Host.Outcome State Fault Refusal :=
  match decode r with
  | .ok i => exec i s
  | .error _ => .next (s.raise .illegalCommand)

/-- Starting an engine with the integrator's configuration (R180, R182): an invalid one is refused, a valid one starts
in the state of R28. -/
def boot (c : Config) : Host.Outcome State Fault Refusal :=
  if tablesValid c.tables then .next (State.initial c) else .refused .invalidConfiguration

/-- Reset between commands (R180, R181): the configuration check, then the state of R28. The tables and the
capacities are unchanged; the host's own side of the channels is not the engine's to clear
(notes/assumptions/9.md). -/
def State.resetEngine (s : State) : Host.Outcome State Fault Refusal :=
  if tablesValid s.tables then
    .next { State.initial ⟨s.tables, s.capacities⟩ with inbox := s.inbox, outbox := s.outbox }
  else .refused .invalidConfiguration

/-- One action of the host: a request is answered, a STATUS read delivers STATUS, a STATUS write is ignored (R23), a
reset resets (R180). -/
def takeAction : HostAction → State → Host.Outcome State Fault Refusal
  | .request r, s => answerRequest r s
  | .readStatus, s => .next (s.deliver (.status s.status))
  | .writeStatus _, s => .next s
  | .reset, s => s.resetEngine

/-- The engine's next move: take the host's oldest pending action (R32, R50); with none pending it is idle and its
state stays (R173). -/
def advance (s : State) : Host.Outcome State Fault Refusal :=
  match s.inbox with
  | [] => .next s
  | a :: rest => takeAction a { s with inbox := rest }

/-- The host issues a request, to be taken next. -/
def State.issue (s : State) (r : Request) : State := { s with inbox := .request r :: s.inbox }

/-- The response delivered last, if the last delivery is one (R31). -/
def State.lastResponse (s : State) : Option Response :=
  match s.outbox.getLast? with
  | some (.response r) => some r
  | _ => none

end Sys2Proof.Machine
end

