-- ==== Sys2Proof/Machine/Step.lean ====
section
/-! DEFINITION. One step of the machine, and where the next instruction is placed for it. -/

namespace Sys2Proof.Machine

/-- One atomic step (R29): the engine's next move. -/
def step (s : State) : Host.Outcome State Fault Refusal := advance s

/-- `s` with the table word issued as the host's next request (R30; notes/assumptions/1.md and 2.md): the engine
fetches nothing (R21, R53), so a request on the channel is what its next step runs. -/
def State.withFetchWord (s : State) (nbits w : Nat) : State := s.issue (tableRequest nbits w)

end Sys2Proof.Machine
end

