-- ==== Sys2Proof/Machine/Program.lean ====
section
/-! DEFINITION. Host programs (spec/30_encoding.md R72, R73): a list of commands whose operands may be results of
earlier ones, what the assembler refuses of them, and how a program runs. All of it is host bookkeeping (R21): the
engine only ever sees requests with values. -/

namespace Sys2Proof.Machine

/-- An operand of a program command: a value, or a result reference (R72). -/
inductive Arg where
  | value (o : Operand)
  /-- `%j`, the result of command j. -/
  | result (j : Nat)
  /-- `%j.base`, the base of a DECODE result. -/
  | base (j : Nat)
  /-- `%j.syn`, the syndrome of a DECODE result. -/
  | syn (j : Nat)
deriving DecidableEq, Repr

/-- A program command: its word (legal or not) and its operands (R72). -/
structure ProgramCommand where
  word : Byte
  args : List Arg
deriving DecidableEq, Repr

/-- A program is a finite list of commands (R72). -/
abbrev Program := List ProgramCommand

/-- The types of results (R64). -/
inductive ResultType where
  | bit
  | bitVec
  | pair
  | stream
  | bytes
deriving DecidableEq, Repr

/-- The type of a command's result (R64). -/
def resultType : Command → ResultType
  | .add | .mul => .bit
  | .vmm | .mvm => .bitVec
  | .encode | .encode74 | .encode1511 => .bitVec
  | .decode | .decode74 | .decode1511 => .pair
  | .correct | .correct74 | .correct1511 => .bitVec
  | .compress74 | .compress1511 => .stream
  | .decompress74 | .decompress1511 => .bytes

/-- The result type of a command word; an illegal word has no result. -/
def resultTypeOfWord (word : Byte) : Option ResultType :=
  match decodeWord word with
  | .ok c => some (resultType c)
  | .error _ => none

/-- The slot that a result of a type fills; a pair fills none. -/
def slotOfResult : ResultType → Option OperandType
  | .bit => some .bit
  | .bitVec => some .bitVec
  | .stream => some .stream
  | .bytes => some .bytes
  | .pair => none

/-- The slot that a reference fills, given the result types of the earlier commands: none for the current or a later
command, for a result that does not exist, and for a component of a result that has none (R72). -/
def slotOfArg (types : List (Option ResultType)) : Arg → Option OperandType
  | .value _ => none
  | .result j =>
    match types[j]? with
    | some (some t) => slotOfResult t
    | _ => none
  | .base j | .syn j =>
    match types[j]? with
    | some (some .pair) => some .bitVec
    | _ => none

/-- Whether an operand is a value and no reference. -/
def Arg.isValue : Arg → Bool
  | .value _ => true
  | _ => false

/-- Whether the assembler accepts the operands of one command (R72): a reference has the type of its slot. A value is
the engine's to check (R66). -/
def argsAdmitted (types : List (Option ResultType)) : List OperandType → List Arg → Bool
  | _, [] => true
  | [], a :: args => a.isValue && argsAdmitted types [] args
  | t :: slots, a :: args => (a.isValue || slotOfArg types a == some t) && argsAdmitted types slots args

/-- Whether the assembler accepts a program, given the result types of the commands before it (R72). -/
def admittedAfter (types : List (Option ResultType)) : Program → Bool
  | [] => true
  | c :: rest =>
    argsAdmitted types ((signatureOfWord c.word).getD []) c.args &&
    admittedAfter (types ++ [resultTypeOfWord c.word]) rest

/-- Whether the assembler accepts a program (R72). One it refuses has no meaning. -/
def programAdmitted (p : Program) : Bool := admittedAfter [] p

/-- The operand a result travels as; a pair travels only by its components. -/
def operandOfResult : Result → Option Operand
  | .bit b => some (.scalar (scalarOfBit b))
  | .bits v => some (.bits v)
  | .stream cs => some (.stream cs)
  | .bytes d => some (.bytes d)
  | .pair _ _ => none

/-- The value an operand stands for, given the results so far (R72). -/
def argValue (results : List Result) : Arg → Option Operand
  | .value o => some o
  | .result j => results[j]?.bind operandOfResult
  | .base j =>
    match results[j]? with
    | some (.pair b _) => some (.bits b)
    | _ => none
  | .syn j =>
    match results[j]? with
    | some (.pair _ s) => some (.bits s)
    | _ => none

/-- The values of a command's operands. -/
def argValues (results : List Result) : List Arg → Option (List Operand)
  | [] => some []
  | a :: args =>
    match argValue results a, argValues results args with
    | some o, some os => some (o :: os)
    | _, _ => none

/-- How a run ends (R73): every command succeeded, or command CI raised a code. -/
inductive RunEnd where
  | finished (results : List Result)
  | faulted (ci : Nat) (code : BitVec 4)
deriving DecidableEq, Repr

/-- The loop of R73 from command index `ci` with the results so far. `none`: no meaning (a reference without a value,
or a request past a capacity). -/
def runFrom (ci : Nat) (results : List Result) : Program → State → Option (State × RunEnd)
  | [], s => some (s, .finished results)
  | c :: rest, s =>
    match argValues results c.args with
    | none => none
    | some ops =>
      match answerRequest ⟨c.word, ops⟩ s with
      | .next s' =>
        match s'.lastResponse with
        | some (.ok r) => runFrom (ci + 1) (results ++ [r]) rest s'
        | some (.fault code) => some (s', .faulted ci code)
        | none => none
      | .fault _ => none
      | .refused _ => none

/-- `run(P)` of R73, for a program the assembler accepts (R72). -/
def runProgram (p : Program) (s : State) : Option (State × RunEnd) :=
  if programAdmitted p then runFrom 0 [] p s else none

end Sys2Proof.Machine
end

