-- ==== Sys2Proof/Machine/Assembler.lean ====
section
/-! DEFINITION. The assembler syntax (spec/30_encoding.md R69 to R71): a line of text to one program command. It is
notation only (D23): what a command means is the engine's. -/

namespace Sys2Proof.Machine

/-! ### Tokens -/

/-- The tokens of a line. A `word` is an unbroken run of other characters; a `text` is what stands in double quotes. -/
inductive Token where
  | word (cs : List Char)
  | text (cs : List Char)
  | comma
  | colon
  | openParen
  | closeParen
  | openBracket
  | closeBracket
  | openBrace
  | closeBrace
deriving DecidableEq, Repr

/-- Where the lexer is: between tokens, in a word, or in a quoted text; what it has read so far, last first. -/
inductive LexMode where
  | between
  | inWord (acc : List Char)
  | inText (acc : List Char)
deriving DecidableEq, Repr

/-- The double quote. -/
def quoteChar : Char := Char.ofNat 34

/-- The token of a punctuation character. -/
def punctuation (c : Char) : Option Token :=
  if c = ',' then some .comma
  else if c = ':' then some .colon
  else if c = '(' then some .openParen
  else if c = ')' then some .closeParen
  else if c = '[' then some .openBracket
  else if c = ']' then some .closeBracket
  else if c = Char.ofNat 123 then some .openBrace
  else if c = Char.ofNat 125 then some .closeBrace
  else none

/-- The tokens of a text; `none` when a quoted text does not end. -/
def lexFrom : LexMode → List Char → Option (List Token)
  | .between, [] => some []
  | .inWord acc, [] => some [.word acc.reverse]
  | .inText _, [] => none
  | .between, c :: cs =>
    if c = quoteChar then lexFrom (.inText []) cs
    else if c = ' ' then lexFrom .between cs
    else
      match punctuation c with
      | some t => (lexFrom .between cs).map (t :: ·)
      | none => lexFrom (.inWord [c]) cs
  | .inWord acc, c :: cs =>
    if c = quoteChar then (lexFrom (.inText []) cs).map (.word acc.reverse :: ·)
    else if c = ' ' then (lexFrom .between cs).map (.word acc.reverse :: ·)
    else
      match punctuation c with
      | some t => (lexFrom .between cs).map fun ts => .word acc.reverse :: t :: ts
      | none => lexFrom (.inWord (c :: acc)) cs
  | .inText acc, c :: cs =>
    if c = quoteChar then (lexFrom .between cs).map (.text acc.reverse :: ·)
    else lexFrom (.inText (c :: acc)) cs

/-! ### Literals of R70 -/

/-- The bits of a quoted string of 0 and 1, first element on the left. -/
def bitsOfChars : List Char → Option Bits
  | [] => some []
  | c :: cs =>
    match bitsOfChars cs with
    | none => none
    | some v => if c = '0' then some (false :: v) else if c = '1' then some (true :: v) else none

/-- The value of a decimal digit. -/
def digitValue (c : Char) : Option Nat :=
  if '0'.toNat ≤ c.toNat ∧ c.toNat ≤ '9'.toNat then some (c.toNat - '0'.toNat) else none

/-- The value of a hexadecimal digit. -/
def hexValue (c : Char) : Option Nat :=
  if 'A'.toNat ≤ c.toNat ∧ c.toNat ≤ 'F'.toNat then some (c.toNat - 'A'.toNat + 10)
  else if 'a'.toNat ≤ c.toNat ∧ c.toNat ≤ 'f'.toNat then some (c.toNat - 'a'.toNat + 10)
  else digitValue c

/-- The number that digits continue, in decimal. -/
def natAfter (acc : Nat) : List Char → Option Nat
  | [] => some acc
  | c :: cs =>
    match digitValue c with
    | some d => natAfter (10 * acc + d) cs
    | none => none

/-- A decimal number: at least one digit. -/
def natOfChars : List Char → Option Nat
  | [] => none
  | c :: cs => natAfter 0 (c :: cs)

/-- The bytes of `x"HH HH ..."`: two hexadecimal digits a byte, in stream order. R70 shows one space between bytes and
says no more of separators. DESIGN CHOICE: none or several spaces may stand between bytes, and before and after them, but
none inside a byte (notes/assumptions/17.md). -/
def bytesOfChars : List Char → Option (List Byte)
  | [] => some []
  | [c] => if c = ' ' then some [] else none
  | c :: d :: cs =>
    if c = ' ' then bytesOfChars (d :: cs)
    else
      match hexValue c, hexValue d, bytesOfChars cs with
      | some hi, some lo, some rest => some (BitVec.ofNat 8 (16 * hi + lo) :: rest)
      | _, _, _ => none

/-- One or more quoted bit vectors between commas, up to the closing token; and what follows it. -/
def textItems (close : Token) : List Token → Option (List Bits × List Token)
  | .text t :: sep :: rest =>
    match bitsOfChars t with
    | none => none
    | some v =>
      if sep = close then some ([v], rest)
      else if sep = .comma then (textItems close rest).map fun (vs, after) => (v :: vs, after)
      else none
  | _ => none

/-- Quoted bit vectors up to the closing token, none or more. -/
def textList (close : Token) : List Token → Option (List Bits × List Token)
  | t :: rest => if t = close then some ([], rest) else textItems close (t :: rest)
  | [] => none

/-- One or more base entries `L"bits"` or `R<j>` between commas, up to the closing bracket. -/
def baseItems : List Token → Option (List BaseEntry × List Token)
  | .word ['L'] :: .text t :: sep :: rest =>
    match bitsOfChars t with
    | none => none
    | some v =>
      if sep = .closeBracket then some ([.literal v], rest)
      else if sep = .comma then (baseItems rest).map fun (es, after) => (.literal v :: es, after)
      else none
  | .word ('R' :: ds) :: sep :: rest =>
    match natOfChars ds with
    | none => none
    | some j =>
      if sep = .closeBracket then some ([.reference j], rest)
      else if sep = .comma then (baseItems rest).map fun (es, after) => (.reference j :: es, after)
      else none
  | _ => none

/-- Base entries up to the closing bracket, none or more. -/
def baseList : List Token → Option (List BaseEntry × List Token)
  | t :: rest => if t = .closeBracket then some ([], rest) else baseItems (t :: rest)
  | [] => none

/-- `M(r,c){"row0","row1",...}`, after the M. -/
def matrixLiteral : List Token → Option Matrix
  | .openParen :: .word r :: .comma :: .word c :: .closeParen :: .openBrace :: rest =>
    match natOfChars r, natOfChars c, textList .closeBrace rest with
    | some r, some c, some (rows, []) => some ⟨r, c, rows⟩
    | _, _, _ => none
  | _ => none

/-- The end of a stream literal: `, pad:P}`. -/
def padLiteral : List Token → Option Bit
  | [.comma, .word p, .colon, .word ['0'], .closeBrace] => if p = "pad".toList then some false else none
  | [.comma, .word p, .colon, .word ['1'], .closeBrace] => if p = "pad".toList then some true else none
  | _ => none

/-- The deviations and the end of a stream literal: `, devs:["...", ...], pad:P}`. -/
def deviationsLiteral : List Token → Option (List Bits × Bit)
  | .comma :: .word d :: .colon :: .openBracket :: rest =>
    if d = "devs".toList then
      match textList .closeBracket rest with
      | some (devs, after) => (padLiteral after).map fun p => (devs, p)
      | none => none
    else none
  | _ => none

/-- `cs{bases:[e0, e1, ...], devs:["...", ...], pad:P}`, after the cs. -/
def streamLiteral : List Token → Option CompressedStream
  | .openBrace :: .word b :: .colon :: .openBracket :: rest =>
    if b = "bases".toList then
      match baseList rest with
      | some (bases, after) => (deviationsLiteral after).map fun (devs, p) => ⟨bases, devs, p⟩
      | none => none
    else none
  | _ => none

/-- The pseudo-operands of R70: the configured matrix of a family. -/
def pseudoMatrix (tables : CodeTables) (w : List Char) : Option Matrix :=
  if w = "H74".toList then some tables.sevenFour.H
  else if w = "H1511".toList then some tables.fifteenEleven.H
  else if w = "G74".toList then some tables.sevenFour.G
  else if w = "G1511".toList then some tables.fifteenEleven.G
  else none

/-- A result reference `%j`, `%j.base` or `%j.syn` (R72), after the percent sign. -/
def referenceArg (w : List Char) : Option Arg :=
  match natOfChars (w.takeWhile (· != '.')) with
  | none => none
  | some j =>
    if w.dropWhile (· != '.') = [] then some (.result j)
    else if w.dropWhile (· != '.') = ".base".toList then some (.base j)
    else if w.dropWhile (· != '.') = ".syn".toList then some (.syn j)
    else none

/-- An operand that is a single word: a reference, a pseudo-operand, or a number. -/
def wordArg (tables : CodeTables) : List Char → Option Arg
  | '%' :: w => referenceArg w
  | w =>
    match pseudoMatrix tables w with
    | some m => some (.value (.matrix m))
    | none => (natOfChars w).map fun n => .value (.scalar n)

/-- One operand (R70), from all of its tokens. -/
def argOfTokens (tables : CodeTables) : List Token → Option Arg
  | [.text t] => (bitsOfChars t).map fun v => .value (.bits v)
  | [.word w] => wordArg tables w
  | [.word ['x'], .text t] => (bytesOfChars t).map fun d => .value (.bytes d)
  | .word ['M'] :: rest => (matrixLiteral rest).map fun m => .value (.matrix m)
  | .word ['c', 's'] :: rest => (streamLiteral rest).map fun cs => .value (.stream cs)
  | _ => none

/-! ### Lines of R69 and the pseudo-instructions of R71 -/

/-- How a token changes the depth of brackets. -/
def depthAfter (depth : Nat) : Token → Nat
  | .openParen | .openBracket | .openBrace => depth + 1
  | .closeParen | .closeBracket | .closeBrace => depth - 1
  | _ => depth

/-- The tokens cut at the commas outside all brackets; `acc` is the piece so far, last first. -/
def cutAtCommas (depth : Nat) (acc : List Token) : List Token → List (List Token)
  | [] => [acc.reverse]
  | t :: rest =>
    if t = .comma ∧ depth = 0 then acc.reverse :: cutAtCommas 0 [] rest
    else cutAtCommas (depthAfter depth t) (t :: acc) rest

/-- The operands of a line, each from its own tokens. -/
def argsOfPieces (tables : CodeTables) : List (List Token) → Option (List Arg)
  | [] => some []
  | p :: rest =>
    match argOfTokens tables p, argsOfPieces tables rest with
    | some a, some as => some (a :: as)
    | _, _ => none

/-- `MNEMONIC[.SUFFIX]` as it is written (R69): the name of R61, and `.74` or `.1511` for an explicit family. -/
def writtenName : Command → String
  | .add => "ADD"
  | .mul => "MUL"
  | .vmm => "VMM"
  | .mvm => "MVM"
  | .encode => "ENCODE"
  | .encode74 => "ENCODE.74"
  | .encode1511 => "ENCODE.1511"
  | .decode => "DECODE"
  | .decode74 => "DECODE.74"
  | .decode1511 => "DECODE.1511"
  | .correct => "CORRECT"
  | .correct74 => "CORRECT.74"
  | .correct1511 => "CORRECT.1511"
  | .compress74 => "COMPRESS.74"
  | .compress1511 => "COMPRESS.1511"
  | .decompress74 => "DECOMPRESS.74"
  | .decompress1511 => "DECOMPRESS.1511"

/-- All 17 commands (R65). -/
def allCommands : List Command :=
  [.add, .mul, .vmm, .mvm, .encode, .encode74, .encode1511, .decode, .decode74, .decode1511, .correct, .correct74,
   .correct1511, .compress74, .compress1511, .decompress74, .decompress1511]

/-- The command with a written name. -/
def commandNamed (name : List Char) : Option Command :=
  allCommands.find? fun c => (writtenName c).toList == name

/-- `SYNDROME.f w` expands to `MVM Hf, w` (R71). -/
def expandSyndrome (tables : CodeTables) (f : Family) (w : Arg) : ProgramCommand where
  word := Command.word .mvm
  args := [.value (.matrix (tables.of f).H), w]

/-- `FLIP.f w, j` expands to `CORRECT.f w, "col(H(f), j)"`, for 0 ≤ j < n(f) (R71). For another j R71 gives no
expansion. DESIGN CHOICE: the assembler refuses it (notes/assumptions/17.md). -/
def expandFlip (tables : CodeTables) (f : Family) (w : Arg) (j : Int) : Option ProgramCommand :=
  if 0 ≤ j ∧ j < blockLen f then
    some {
      word := Command.word (match f with | .sevenFour => .correct74 | .fifteenEleven => .correct1511)
      args := [w, .value (.bits (col (tables.of f).H j.toNat))] }
  else none

/-- A command or a pseudo-instruction applied to its operands (R69, R71). A command takes any operands here, since its
count is the engine's to check (R66). A pseudo-instruction is no request, and R71 does not say who refuses a wrong one.
DESIGN CHOICE: the assembler does, for a SYNDROME without exactly one operand, and for a FLIP without exactly two or
whose j is no number literal (notes/assumptions/17.md). -/
def namedCommand (tables : CodeTables) (name : List Char) (args : List Arg) : Option ProgramCommand :=
  match commandNamed name with
  | some c => some ⟨Command.word c, args⟩
  | none =>
    match args with
    | [w] =>
      if name = "SYNDROME.74".toList then some (expandSyndrome tables .sevenFour w)
      else if name = "SYNDROME.1511".toList then some (expandSyndrome tables .fifteenEleven w)
      else none
    | [w, .value (.scalar j)] =>
      if name = "FLIP.74".toList then expandFlip tables .sevenFour w j
      else if name = "FLIP.1511".toList then expandFlip tables .fifteenEleven w j
      else none
    | _ => none

/-- One line of assembler text (R69); `none` where the assembler refuses it. -/
def assembleLine (tables : CodeTables) (line : String) : Option ProgramCommand :=
  match lexFrom .between line.toList with
  | some (.word name :: rest) =>
    match argsOfPieces tables (if rest = [] then [] else cutAtCommas 0 [] rest) with
    | some args => namedCommand tables name args
    | none => none
  | _ => none

/-- A program from its lines (R72). -/
def assemble (tables : CodeTables) : List String → Option Program
  | [] => some []
  | line :: rest =>
    match assembleLine tables line, assemble tables rest with
    | some c, some cs => some (c :: cs)
    | _, _ => none

end Sys2Proof.Machine
end

