-- ==== Sys2Proof/Safety.lean ====
section
/-! DEFINITION. What a safe state of the engine is, and the terms the statements use: the state a completed command
leaves, the forms of a command by family, and what a well-made stream is. -/

namespace Sys2Proof.Machine

/-! ### Safe states -/

/-- Whether a delivery is the response `Fault(code(E))`. -/
def Delivery.isFault (e : ErrorKind) : Delivery → Bool
  | .response (.fault code) => code == errorCode e
  | _ => false

/-- What holds between any two commands of an admitted engine: its tables are valid (R180), STATUS holds a value it
can hold (R23), and no dedup table exists (R26). -/
def EngineInv (s : State) : Prop :=
  tablesValid s.tables = true ∧ statusLegal s.status = true ∧ s.dedup = none

/-- The engine has never answered UncorrectableSyndrome, which a valid table excludes (R107, R160). -/
def NeverUncorrectable (s : State) : Prop :=
  ∀ d ∈ s.outbox, d.isFault .uncorrectableSyndrome = false

/-! ### The state a completed command leaves -/

/-- `s` after a command that returned a result (R24, R31): STATUS = 0x10 and one response more. -/
def State.afterOk (s : State) (r : Result) : State :=
  { s with status := 0x10, outbox := s.outbox ++ [.response (.ok r)] }

/-- `s` after a command that raised an error with this code (R24, R162): STATUS = 0x10 | code and one response more. -/
def State.afterFault (s : State) (code : BitVec 4) : State :=
  { s with status := 0x10 ||| code.setWidth 8, outbox := s.outbox ++ [.response (.fault code)] }

/-- `s` after a command with this response. -/
def State.afterResponse (s : State) : Response → State
  | .ok r => s.afterOk r
  | .fault code => s.afterFault code

/-- No capacity is exceeded by a load (R6): `exec` does not refuse it. -/
def Fits (s : State) (load : Load) : Prop := ∀ c n, (c, n) ∈ load → ∀ b, s.capacities.limit c = some b → n ≤ b

/-! ### Commands by family -/

/-- ENCODE with an explicit family. -/
def encodeOf : Family → Bits → Instr
  | .sevenFour => .encode74
  | .fifteenEleven => .encode1511

/-- DECODE with an explicit family. -/
def decodeOf : Family → Bits → Instr
  | .sevenFour => .decode74
  | .fifteenEleven => .decode1511

/-- CORRECT with an explicit family. -/
def correctOf : Family → Bits → Bits → Instr
  | .sevenFour => .correct74
  | .fifteenEleven => .correct1511

/-- COMPRESS of a family. -/
def compressOf : Family → List Byte → Instr
  | .sevenFour => .compress74
  | .fifteenEleven => .compress1511

/-- DECOMPRESS of a family. -/
def decompressOf : Family → CompressedStream → Instr
  | .sevenFour => .decompress74
  | .fifteenEleven => .decompress1511

/-- Whether an instruction is a COMPRESS, the one command that has a dedup table (R26). -/
def isCompress : Instr → Bool
  | .compress74 _ | .compress1511 _ => true
  | _ => false

/-! ### Syndromes -/

/-- A syndrome over which `correct_core` raises (R107): it is not zero, and no column of H equals it. -/
def Unmatched (s : State) (f : Family) (e : Bits) : Prop :=
  e ≠ zeros (syndromeLen f) ∧ ∀ j, j < blockLen f → col (s.tables.of f).H j ≠ e

/-! ### Programs -/

/-- The engine, in state `s`, gives this response to command j of a program once each reference is replaced by the
result it names (R72, R73). -/
def CommandAnswers (p : Program) (s : State) (results : List Result) (j : Nat) (resp : Response) : Prop :=
  ∃ c ops u, p[j]? = some c ∧ argValues results c.args = some ops ∧ answerRequest ⟨c.word, ops⟩ s = .next u ∧
    u.lastResponse = some resp

/-! ### Streams -/

/-- The bytes of one chunk: 1 for SevenFour, 2 for FifteenEleven (R41, R43). -/
def chunkBytes : Family → Nat
  | .sevenFour => 1
  | .fifteenEleven => 2

/-- The number of chunks of an input: `len(data)` for SevenFour and `⌈len(data)/2⌉` for FifteenEleven (R138). -/
def chunkCount : Family → List Byte → Nat
  | .sevenFour, d => d.length
  | .fifteenEleven, d => (d.length + 1) / 2

/-- The literal that an entry of a Base sequence stands for: itself, or the literal it points at (R136). -/
def StandsFor (bases : List BaseEntry) : BaseEntry → Bits → Prop
  | .literal v, lit => lit = v
  | .reference j, lit => bases[j]? = some (.literal lit)

/-- Entry i of a stream passes the checks of R136. -/
def EntryOk (f : Family) (cs : CompressedStream) (i : Nat) : Prop :=
  ∃ e dev lit, cs.bases[i]? = some e ∧ cs.deviations[i]? = some dev ∧ StandsFor cs.bases e lit ∧
    lit.length = messageLen f ∧ dev.length = deviationLen f

/-- The checks of R136 on the whole stream, before its entries: equal lengths, and a legal pad flag. -/
def HeaderOk (f : Family) (cs : CompressedStream) : Prop :=
  cs.bases.length = cs.deviations.length ∧
  (cs.pad = true → f = .fifteenEleven ∧ cs.bases.length ≠ 0)

/-- A stream that passes validation (R136). -/
def StreamOk (f : Family) (cs : CompressedStream) : Prop :=
  HeaderOk f cs ∧ ∀ i, i < cs.bases.length → EntryOk f cs i

/-- The base that DECODE gives a window (R111). -/
def decodedBase (tables : CodeTables) (f : Family) (w : Bits) : Bits :=
  match decodeBlock tables (some f) w with
  | .ok (b, _) => b
  | .error _ => []

/-- The bases that DECODE gives the chunks of an input, in chunk order (R133, R138). -/
def decodedBases (tables : CodeTables) (f : Family) (data : List Byte) : List Bits :=
  (chunks f (padInput f data).1).map fun x => decodedBase tables f x.1

/-- The Literal vectors of a Base sequence, in order. -/
def literals (bases : List BaseEntry) : List Bits :=
  bases.filterMap fun e =>
    match e with
    | .literal v => some v
    | .reference _ => none

end Sys2Proof.Machine
end

