-- ==== Sys2Proof/Certificates/Slice0/Obligations.lean ====
section
/-! DEFINITION. The statements for the provers, from the numbered rules of spec/. Each docstring names the rule it
formalises. A statement over all states ranges over all code tables and all capacities, since State carries them. -/

open Sys2Proof Sys2Proof.Machine

/-! ### Encoding and decoding -/

/-- R61, R62, R65 (and the words of 95_test_vectors.md V9): words written out from the field tables decode to the
commands they stand for, and one word of each illegal kind is rejected for its own reason. -/
def Obligations.CommandWordsDecodeToTheirCommands : Prop :=
  decode ⟨0b00000000, [.scalar 1, .scalar 0]⟩ = .ok (.add true false) ∧
  decode ⟨0b00010000, [.scalar 0, .scalar 1]⟩ = .ok (.mul false true) ∧
  decode ⟨0b00100000, [.bits [true], .matrix ⟨1, 2, [[true, false]]⟩]⟩ = .ok (.vmm [true] ⟨1, 2, [[true, false]]⟩) ∧
  decode ⟨0b00110000, [.matrix ⟨1, 2, [[true, false]]⟩, .bits [true]]⟩ = .ok (.mvm ⟨1, 2, [[true, false]]⟩ [true]) ∧
  decode ⟨0b01000100, [.bits [true, false]]⟩ = .ok (.encode74 [true, false]) ∧
  decode ⟨0b01011000, [.bits [true, false]]⟩ = .ok (.decode1511 [true, false]) ∧
  decode ⟨0b01100000, [.bits [true], .bits [false]]⟩ = .ok (.correct [true] [false]) ∧
  decode ⟨0b01111000, [.bytes [0x12, 0x34]]⟩ = .ok (.compress1511 [0x12, 0x34]) ∧
  decode ⟨0b10000100, [.stream ⟨[.reference 3], [[true]], false⟩]⟩ =
    .ok (.decompress74 ⟨[.reference 3], [[true]], false⟩) ∧
  decode ⟨0b00000001, [.scalar 1, .scalar 0]⟩ = .error .reservedBits ∧
  decode ⟨0b10010000, []⟩ = .error .reservedOp ∧
  decode ⟨0b01110000, [.bytes []]⟩ = .error .illegalFamily ∧
  decode ⟨0b00000000, [.scalar 2, .scalar 0]⟩ = .error .operandMismatch

/-- R60 to R66: decoding and encoding agree on every request and every instruction, with every operand at every
value: a request decodes to `i` exactly when it is the encoding of `i`. -/
def Obligations.DecodeAndEncodeAgree : Prop :=
  ∀ (r : Request) (i : Instr), decode r = .ok i ↔ r = encode i

/-- R64, R65, R66: the decoder accepts exactly the well-formed requests: one of the 17 listed words, with operands of
the listed count and types. -/
def Obligations.DecoderAcceptsExactlyWellFormedRequests : Prop :=
  ∀ r : Request, (∃ i, decode r = .ok i) ↔ r.wellFormed = true

/-- R65: exactly 17 command words are legal, the ones listed there. -/
def Obligations.ExactlySeventeenWordsAreLegal : Prop :=
  (List.range 256).filter (fun w => (signatureOfWord (BitVec.ofNat 8 w)).isSome) =
    [0x00, 0x10, 0x20, 0x30, 0x40, 0x44, 0x48, 0x50, 0x54, 0x58, 0x60, 0x64, 0x68, 0x74, 0x78, 0x84, 0x88] ∧
  ∀ w : Byte, (∃ c, decodeWord w = .ok c) ↔ (signatureOfWord w).isSome = true

/-- R63: a command word with RSV ≠ 00 is illegal, whatever its other bits, its operands and the state: it raises
IllegalCommand (code 5, STATUS 0x15) and has no other effect. -/
def Obligations.ReservedBitsAreIllegal : Prop :=
  ∀ (s : State) (r : Request) (rest : List HostAction), s.inbox = .request r :: rest →
    r.word.extractLsb' 0 2 ≠ 0 → step s = .next (({ s with inbox := rest } : State).afterFault 5)

/-- R65, R66, R67: a request that is not well formed (an illegal word, or operands of the wrong count or type) raises
IllegalCommand, writes STATUS = 0x15 and has no other effect. -/
def Obligations.IllFormedRequestRaisesIllegalCommand : Prop :=
  ∀ (s : State) (r : Request) (rest : List HostAction), s.inbox = .request r :: rest → r.wellFormed = false →
    step s = .next { s with
      inbox := rest, status := 0x15, outbox := s.outbox ++ [.response (.fault 5)] }

/-! ### The interfaces -/

/-- R29, R73: when the host's next action is a request that decodes to `i`, the step is `exec i`, with the request
taken off the channel and nothing else around it. -/
def Obligations.StepRunsTheDecodedInstruction : Prop :=
  ∀ (s : State) (r : Request) (rest : List HostAction) (i : Instr), s.inbox = .request r :: rest →
    decode r = .ok i → step s = exec i { s with inbox := rest }

/-- R23, R173: a STATUS read delivers STATUS and changes nothing of the engine; a STATUS write is ignored; with nothing
pending the engine is idle and its state stays (the last is the model's choice of what an idle step is,
notes/assumptions/14.md). -/
def Obligations.StatusPortReadsAndIgnoresWrites : Prop :=
  ∀ (s : State) (b : Byte) (rest : List HostAction),
    (s.inbox = .readStatus :: rest →
      step s = .next { s with inbox := rest, outbox := s.outbox ++ [.status s.status] }) ∧
    (s.inbox = .writeStatus b :: rest → step s = .next { s with inbox := rest }) ∧
    (s.inbox = [] → step s = .next s)

/-- R28: after reset STATUS is 0 in every field and there is no dedup table; for every valid configuration, and not
only for the default one, whose tables and capacities the reset leaves as the integrator fixed them. -/
def Obligations.ResetLeavesStatusZeroAndNoTable : Prop :=
  ∀ c : Config, tablesValid c.tables = true →
    ∃ t, boot c = .next t ∧ statusErr t.status = 0 ∧ statusDone t.status = false ∧ statusReserved t.status = 0 ∧
      t.dedup = none ∧ t.tables = c.tables ∧ t.capacities = c.capacities

/-- R180, R181: a reset between commands puts STATUS at 0x00 and discards any dedup table, leaving the code tables and
the capacities alone, when both tables are valid; a configuration with an invalid table is refused, at the start and
at a later reset. That a reset leaves the two channels as they are is the model's choice (notes/assumptions/9.md). -/
def Obligations.ResetChecksTheConfiguration : Prop :=
  (∀ (s : State) (rest : List HostAction), s.inbox = .reset :: rest → tablesValid s.tables = true →
    step s = .next { s with inbox := rest, status := 0x00, dedup := none }) ∧
  (∀ (s : State) (rest : List HostAction), s.inbox = .reset :: rest → tablesValid s.tables = false →
    step s = .refused .invalidConfiguration) ∧
  (∀ c : Config, tablesValid c.tables = false → boot c = .refused .invalidConfiguration)

/-- R6, R138 (D22): an operand past a capacity parameter is refused, for each parameter, whatever the other bounds are:
a VMM or MVM request past any bound is refused, and so is a COMPRESS input or a DECOMPRESS operand. Which parameter a
refusal names first (the one whose earlier operands fit), and that a matrix is measured by its stated rows and columns,
is the model's choice (notes/assumptions/7.md). -/
def Obligations.OperandsPastACapacityAreRefused : Prop :=
  ∀ (s : State) (bound : Nat),
    (∀ v m, s.capacities.maxVecLen = some bound → bound < v.length →
      exec (.vmm v m) s = .refused (.overCapacity .maxVecLen) ∧
      exec (.mvm m v) s = .refused (.overCapacity .maxVecLen)) ∧
    (∀ v m, Fits s [(.maxVecLen, v.length)] → s.capacities.maxMatRows = some bound → bound < m.r →
      exec (.vmm v m) s = .refused (.overCapacity .maxMatRows) ∧
      exec (.mvm m v) s = .refused (.overCapacity .maxMatRows)) ∧
    (∀ v m, Fits s [(.maxVecLen, v.length), (.maxMatRows, m.r)] → s.capacities.maxMatCols = some bound →
      bound < m.c →
      exec (.vmm v m) s = .refused (.overCapacity .maxMatCols) ∧
      exec (.mvm m v) s = .refused (.overCapacity .maxMatCols)) ∧
    (∀ v m, ¬ Fits s (linearLoad v m) →
      ∃ c, exec (.vmm v m) s = .refused (.overCapacity c) ∧ exec (.mvm m v) s = .refused (.overCapacity c)) ∧
    (∀ f data, s.capacities.maxStreamBytes = some bound → bound < data.length →
      exec (compressOf f data) s = .refused (.overCapacity .maxStreamBytes)) ∧
    (∀ f cs, s.capacities.maxStreamEntries = some bound →
      (bound < cs.bases.length ∨ bound < cs.deviations.length) →
      exec (decompressOf f cs) s = .refused (.overCapacity .maxStreamEntries))

/-! ### Every command -/

/-- R24, R31, R162: when a command completes, it writes STATUS once (ERR is 0 after a result and the code after a fault,
DONE is 1, the reserved bits are 0) and gives one response, and there is no other effect: the frame of all 17
instructions. Only COMPRESS touches the dedup table, and it leaves none (R26). -/
def Obligations.CommandsChangeOnlyStatusAndResponse : Prop :=
  ∀ (i : Instr) (s t : State), exec i s = .next t →
    ∃ p : Response, t = { s.afterResponse p with dedup := t.dedup } ∧
      statusReserved t.status = 0 ∧ statusDone t.status = true ∧
      statusErr t.status = (match p with | .ok _ => 0 | .fault code => code) ∧
      t.dedup = if isCompress i then none else s.dedup

/-- The engine's invariant holds at reset (R28, R180), with the default tables, which are a choice of the spec's own for
the OPEN parameter CodeTables (notes/assumptions/5.md). -/
def Obligations.ResetMeetsTheInvariant : Prop := EngineInv State.reset

/-- R23, R25, R26: every step keeps the invariant: the tables stay valid, STATUS holds a value it can hold (reserved
bits 0, ERR at most 6, no error before DONE), and no dedup table outlives a command. -/
def Obligations.StepKeepsTheInvariant : Prop :=
  ∀ s t : State, EngineInv s → step s = .next t → EngineInv t

/-- R107, R160: with valid tables no step ever answers UncorrectableSyndrome, whatever the request. -/
def Obligations.UncorrectableSyndromeIsNeverAnswered : Prop :=
  ∀ s t : State, EngineInv s → NeverUncorrectable s → step s = .next t → EngineInv t ∧ NeverUncorrectable t

/-- R47: the response is a function of the command word, the operands and the code tables alone (and of the capacities,
which can only refuse): two states that share these answer the same request in the same way, whatever else they hold,
so a retried request gives the same response. -/
def Obligations.SameRequestGivesSameResponse : Prop :=
  ∀ (r : Request) (s s' t : State), s'.tables = s.tables → s'.capacities = s.capacities →
    answerRequest r s = .next t →
    ∃ t' p, answerRequest r s' = .next t' ∧ t.lastResponse = some p ∧ t'.lastResponse = some p

/-- R32, R50: requests are answered one at a time, in issue order, one response each, and each response is the one the
request would get alone: the only state one command leaves for the next is STATUS. The list of the host's coming
requests is the model's form of the channel (notes/assumptions/3.md and 4.md). -/
def Obligations.ResponsesComeInRequestOrder : Prop :=
  ∀ (rs : List Request) (s t : State), s.inbox = rs.map .request → Sys2Proof.core.run rs.length s = .next t →
    t.inbox = [] ∧ t.tables = s.tables ∧ t.capacities = s.capacities ∧
    ∃ ps : List Response, ps.length = rs.length ∧ t.outbox = s.outbox ++ ps.map .response ∧
      ∀ (j : Nat) (r : Request) (p : Response), rs[j]? = some r → ps[j]? = some p →
        ∃ u, answerRequest r s = .next u ∧ u.lastResponse = some p

/-! ### GF(2) operations -/

/-- R81, R82: ADD answers `a ⊕ b` and MUL answers `a ∧ b`, for all four pairs of bits and in every state; STATUS is
0x10 and nothing else changes. -/
def Obligations.AddAndMulComplete : Prop :=
  ∀ (a b : Bit) (s : State),
    exec (.add a b) s = .next (s.afterOk (.bit (a != b))) ∧
    exec (.mul a b) s = .next (s.afterOk (.bit (a && b)))

/-- R83, R86: VMM of a well-formed matrix and a vector of rows(M) bits answers the vector of cols(M) bits whose element
j is the mod-2 sum of `v[i] ∧ M[i][j]` over i. -/
def Obligations.VmmAnswersColumnSums : Prop :=
  ∀ (v : Bits) (m : Matrix) (s : State), m.rows.length = m.r → (∀ row ∈ m.rows, row.length = m.c) →
    v.length = m.r → Fits s (linearLoad v m) →
    ∃ out : Bits, exec (.vmm v m) s = .next (s.afterOk (.bits out)) ∧ out.length = m.c ∧
      ∀ j, j < m.c →
        out[j]? = some (xorSum ((List.range m.r).map fun i => bitAt v i && bitAt (m.rows.getD i []) j))

/-- R84: MVM of a well-formed matrix and a vector of cols(M) bits answers the vector of rows(M) bits whose element i is
the mod-2 sum of `M[i][j] ∧ v[j]` over j. -/
def Obligations.MvmAnswersRowSums : Prop :=
  ∀ (m : Matrix) (v : Bits) (s : State), m.rows.length = m.r → (∀ row ∈ m.rows, row.length = m.c) →
    v.length = m.c → Fits s (linearLoad v m) →
    ∃ out : Bits, exec (.mvm m v) s = .next (s.afterOk (.bits out)) ∧ out.length = m.r ∧
      ∀ i, i < m.r →
        out[i]? = some (xorSum ((List.range m.c).map fun j => bitAt (m.rows.getD i []) j && bitAt v j))

/-- R80, R83, R84: a ragged or miscounted matrix, or a vector of the wrong length, raises DimensionMismatch (code 1) in
VMM and in MVM. -/
def Obligations.ShapeMismatchRaisesDimensionMismatch : Prop :=
  ∀ (v : Bits) (m : Matrix) (s : State), Fits s (linearLoad v m) →
    ((m.rows.length ≠ m.r ∨ (∃ row ∈ m.rows, row.length ≠ m.c) ∨ v.length ≠ m.r) →
      exec (.vmm v m) s = .next (s.afterFault 1)) ∧
    ((m.rows.length ≠ m.r ∨ (∃ row ∈ m.rows, row.length ≠ m.c) ∨ v.length ≠ m.c) →
      exec (.mvm m v) s = .next (s.afterFault 1))

/-- R85: the laws of ADD and MUL on bits, and the linearity of VMM and MVM in their vector operand. -/
def Obligations.GfLawsAndLinearity : Prop :=
  (∀ a b c : Bit, gfAdd a b = gfAdd b a ∧ gfAdd (gfAdd a b) c = gfAdd a (gfAdd b c) ∧ gfAdd a false = a ∧
    gfAdd a a = false ∧ gfMul a b = gfMul b a ∧ gfMul (gfMul a b) c = gfMul a (gfMul b c) ∧ gfMul a true = a ∧
    gfMul a false = false ∧ gfMul a (gfAdd b c) = gfAdd (gfMul a b) (gfMul a c)) ∧
  (∀ (m : Matrix) (v w x y : Bits), v.length = w.length → vmm v m = .ok x → vmm w m = .ok y →
    vmm (xorBits v w) m = .ok (xorBits x y)) ∧
  (∀ (m : Matrix) (v w x y : Bits), v.length = w.length → mvm m v = .ok x → mvm m w = .ok y →
    mvm m (xorBits v w) = .ok (xorBits x y))

/-! ### The block code -/

/-- R103: both default tables (R101, R102) come from one construction. The tables are the default of an OPEN parameter
(notes/assumptions/5.md). -/
def Obligations.DefaultTablesComeFromTheConstruction : Prop :=
  constructedTable 7 4 = defaultSevenFour ∧ constructedTable 15 11 = defaultFifteenEleven

/-- R105: the check of a table is the five conditions V1 to V5, element by element. -/
def Obligations.ValidityIsTheFiveConditions : Prop :=
  ∀ (f : Family) (t : CodeTable), tableValid f t = true ↔
    (t.n = blockLen f ∧ t.k = messageLen f ∧
      (t.G.rows.length = messageLen f ∧ t.G.r = messageLen f ∧ t.G.c = blockLen f ∧
        ∀ row ∈ t.G.rows, row.length = blockLen f) ∧
      (t.H.rows.length = syndromeLen f ∧ t.H.r = syndromeLen f ∧ t.H.c = blockLen f ∧
        ∀ row ∈ t.H.rows, row.length = blockLen f)) ∧
    (∀ i, i < blockLen f → col t.H i ≠ zeros (syndromeLen f) ∧
      ∀ j, j < blockLen f → col t.H i = col t.H j → i = j) ∧
    (∀ row ∈ t.G.rows, mvm t.H row = .ok (zeros (syndromeLen f))) ∧
    (∀ u : Bits, u.length = messageLen f → vmm u t.G = .ok (zeros (blockLen f)) → u = zeros (messageLen f)) ∧
    (∀ i j, i < messageLen f → j < messageLen f →
      bitAt (t.G.rows.getD i []) (match t.policy with | .leading => j | .trailing => syndromeLen f + j) = (i == j))

/-- R106: the AUTO forms select by the operand's length, and then do what the explicit form of that family does. -/
def Obligations.AutoSelectsByLength : Prop :=
  ∀ (f : Family) (s : State) (x e : Bits),
    (x.length = messageLen f → exec (.encode x) s = exec (encodeOf f x) s) ∧
    (x.length = blockLen f → exec (.decode x) s = exec (decodeOf f x) s) ∧
    (x.length = blockLen f → exec (.correct x e) s = exec (correctOf f x e) s)

/-- R106, R110 to R112, R160: an operand of the wrong length is never truncated or padded: with an explicit family it
raises InvalidLength (2), with AUTO UnsupportedCodeLength (3), and CORRECT raises InvalidLength for a wrong syndrome
length once the codeword's length is right. -/
def Obligations.WrongLengthsRaise : Prop :=
  ∀ (s : State) (f : Family) (x e : Bits),
    (x.length ≠ messageLen f → exec (encodeOf f x) s = .next (s.afterFault 2)) ∧
    (x.length ≠ blockLen f → exec (decodeOf f x) s = .next (s.afterFault 2) ∧
      exec (correctOf f x e) s = .next (s.afterFault 2)) ∧
    (x.length = blockLen f → e.length ≠ syndromeLen f → exec (correctOf f x e) s = .next (s.afterFault 2) ∧
      exec (.correct x e) s = .next (s.afterFault 2)) ∧
    (x.length ≠ 4 → x.length ≠ 11 → exec (.encode x) s = .next (s.afterFault 3)) ∧
    (x.length ≠ 7 → x.length ≠ 15 → exec (.decode x) s = .next (s.afterFault 3) ∧
      exec (.correct x e) s = .next (s.afterFault 3))

/-- R110: ENCODE of a k-bit message, with an explicit family or AUTO, answers `VMM(message, G)`: n bits, with zero
syndrome, and with the message at the data positions. -/
def Obligations.EncodeAnswersTheCodeword : Prop :=
  ∀ (f : Family) (s : State) (u : Bits), tableValid f (s.tables.of f) = true → u.length = messageLen f →
    ∃ c : Bits, exec (encodeOf f u) s = .next (s.afterOk (.bits c)) ∧
      exec (.encode u) s = .next (s.afterOk (.bits c)) ∧ vmm u (s.tables.of f).G = .ok c ∧ c.length = blockLen f ∧
      mvm (s.tables.of f).H c = .ok (zeros (syndromeLen f)) ∧ dataBits s.tables f c = u

/-- R111, R104, R107: DECODE accepts any n-bit word, with an explicit family or AUTO, and answers the data bits of the
corrected word with the syndrome before correction; the corrected word is the word itself for the zero syndrome, and
else differs from it in the one bit whose H column is the syndrome. -/
def Obligations.DecodeAnswersBaseAndSyndrome : Prop :=
  ∀ (f : Family) (s : State) (w : Bits), tableValid f (s.tables.of f) = true → w.length = blockLen f →
    ∃ e c : Bits, exec (decodeOf f w) s = .next (s.afterOk (.pair (dataBits s.tables f c) e)) ∧
      exec (.decode w) s = .next (s.afterOk (.pair (dataBits s.tables f c) e)) ∧
      mvm (s.tables.of f).H w = .ok e ∧ e.length = syndromeLen f ∧ (dataBits s.tables f c).length = messageLen f ∧
      (e = zeros (syndromeLen f) → c = w) ∧
      (e ≠ zeros (syndromeLen f) → ∃ j, j < blockLen f ∧ col (s.tables.of f).H j = e ∧ c = flipBit w j)

/-- R109 P1: ENCODE then DECODE gives the message back, with the zero syndrome. -/
def Obligations.DecodeInvertsEncode : Prop :=
  ∀ (f : Family) (s : State) (u : Bits), tableValid f (s.tables.of f) = true → u.length = messageLen f →
    ∃ c : Bits, exec (encodeOf f u) s = .next (s.afterOk (.bits c)) ∧
      exec (decodeOf f c) s = .next (s.afterOk (.pair u (zeros (syndromeLen f))))

/-- R109 P2: one flipped bit of a codeword is corrected, and the syndrome is the flipped position's H column. -/
def Obligations.DecodeCorrectsAnySingleFlip : Prop :=
  ∀ (f : Family) (s : State) (u : Bits) (p : Nat), tableValid f (s.tables.of f) = true → u.length = messageLen f →
    p < blockLen f →
    ∃ c : Bits, exec (encodeOf f u) s = .next (s.afterOk (.bits c)) ∧
      exec (decodeOf f (flipBit c p)) s = .next (s.afterOk (.pair u (col (s.tables.of f).H p)))

/-- R109 P3: the codewords are exactly the null space of H. -/
def Obligations.CodewordsAreTheNullSpace : Prop :=
  ∀ (f : Family) (s : State) (w : Bits), tableValid f (s.tables.of f) = true → w.length = blockLen f →
    (mvm (s.tables.of f).H w = .ok (zeros (syndromeLen f)) ↔
      exec (encodeOf f (dataBits s.tables f w)) s = .next (s.afterOk (.bits w)))

/-- R112, R107: CORRECT of an n-bit word and an m-bit syndrome, with an explicit family or AUTO, always completes under
a valid table: the zero syndrome returns the word, and every other one is the H column of exactly one position, which
is flipped. -/
def Obligations.CorrectFlipsTheNamedBit : Prop :=
  ∀ (f : Family) (s : State) (w e : Bits), tableValid f (s.tables.of f) = true → w.length = blockLen f →
    e.length = syndromeLen f →
    ∃ c : Bits, exec (correctOf f w e) s = .next (s.afterOk (.bits c)) ∧
      exec (.correct w e) s = .next (s.afterOk (.bits c)) ∧
      (e = zeros (syndromeLen f) → c = w) ∧
      (e ≠ zeros (syndromeLen f) →
        ∃ j, j < blockLen f ∧ col (s.tables.of f).H j = e ∧ c = flipBit w j ∧
          ∀ j', j' < blockLen f → col (s.tables.of f).H j' = e → j' = j)

/-- R112: applying the same syndrome twice restores the operand. -/
def Obligations.CorrectTwiceRestores : Prop :=
  ∀ (f : Family) (s : State) (w e : Bits), tableValid f (s.tables.of f) = true → w.length = blockLen f →
    e.length = syndromeLen f →
    ∃ c : Bits, exec (correctOf f w e) s = .next (s.afterOk (.bits c)) ∧
      exec (correctOf f c e) s = .next (s.afterOk (.bits w))

/-- R107, R111, R112, R160: over any table, CORRECT of a non-zero syndrome that no column of H equals, and DECODE of a
word that has such a syndrome, raise UncorrectableSyndrome (code 4), with an explicit family and with AUTO. Such a table
is invalid, so no admitted engine shows it; the rule stays total. (COMPRESS and DECOMPRESS over such a table:
`UnmatchedSyndromeEndsThePipeline`.) -/
def Obligations.UnmatchedSyndromeRaises : Prop :=
  ∀ (f : Family) (s : State) (w e : Bits), w.length = blockLen f → Unmatched s f e →
    (e.length = syndromeLen f →
      exec (correctOf f w e) s = .next (s.afterFault 4) ∧ exec (.correct w e) s = .next (s.afterFault 4)) ∧
    (mvm (s.tables.of f).H w = .ok e →
      exec (decodeOf f w) s = .next (s.afterFault 4) ∧ exec (.decode w) s = .next (s.afterFault 4))

/-- R113, the GDD inversion lemma: for a word decoded to (b, e), encoding b and correcting by e gives the word back. -/
def Obligations.GddInversion : Prop :=
  ∀ (f : Family) (s : State) (w : Bits), tableValid f (s.tables.of f) = true → w.length = blockLen f →
    ∃ b e c : Bits, exec (decodeOf f w) s = .next (s.afterOk (.pair b e)) ∧
      exec (encodeOf f b) s = .next (s.afterOk (.bits c)) ∧
      exec (correctOf f c e) s = .next (s.afterOk (.bits w))

/-- R71: `SYNDROME.f w` answers the syndrome of w, and `FLIP.f w, j` answers w with bit j inverted, for every position
j; past the last position the assembler refuses FLIP (that it
is the assembler: notes/assumptions/17.md). -/
def Obligations.PseudoInstructionsDoWhatTheyName : Prop :=
  ∀ (f : Family) (s : State) (w : Bits), tableValid f (s.tables.of f) = true → w.length = blockLen f →
    (Fits s (linearLoad w (s.tables.of f).H) →
      ∃ ops e, argValues [] (expandSyndrome s.tables f (.value (.bits w))).args = some ops ∧
        mvm (s.tables.of f).H w = .ok e ∧
        answerRequest ⟨(expandSyndrome s.tables f (.value (.bits w))).word, ops⟩ s =
          .next (s.afterOk (.bits e))) ∧
    (∀ j : Nat, j < blockLen f →
      ∃ c ops, expandFlip s.tables f (.value (.bits w)) j = some c ∧ argValues [] c.args = some ops ∧
        answerRequest ⟨c.word, ops⟩ s = .next (s.afterOk (.bits (flipBit w j)))) ∧
    (∀ j : Nat, blockLen f ≤ j → expandFlip s.tables f (.value (.bits w)) j = none)

/-! ### The GDD pipeline -/

/-- R40: bit order inside a byte is MSB first, and the two conversions are exact inverses on 8-bit values. -/
def Obligations.ByteCodecIsExact : Prop :=
  (∀ b : Byte, (byteToBits b).length = 8 ∧ bitsToByte (byteToBits b) = b ∧
    ∀ i, i < 8 → (byteToBits b)[i]? = some ((b >>> (7 - i)).getLsbD 0)) ∧
  (∀ v : Bits, v.length = 8 → byteToBits (bitsToByte v) = v ∧
    (bitsToByte v).toNat = ((List.range 8).map fun i => (bitAt v i).toNat * 2 ^ (7 - i)).sum)

/-- R41, R42, R130: a SevenFour chunk is one byte, a FifteenEleven chunk is two with the earlier byte first; the window
is the first n bits and the carry the last bit, the least significant bit of the (second) byte. -/
def Obligations.ChunksAreWindowsAndCarries : Prop :=
  ∀ d : List Byte,
    (chunks .sevenFour d).length = d.length ∧ (chunks .fifteenEleven d).length = d.length / 2 ∧
    (∀ (i : Nat) (b : Byte), d[i]? = some b → (chunks .sevenFour d)[i]? = some ((byteToBits b).take 7, b.getLsbD 0)) ∧
    (∀ (i : Nat) (a b : Byte), d[2 * i]? = some a → d[2 * i + 1]? = some b →
      (chunks .fifteenEleven d)[i]? = some ((byteToBits a ++ byteToBits b).take 15, b.getLsbD 0))

/-- R132, R135: a FifteenEleven input of odd length gets one 0x00 byte and pad = 1; every other input is unchanged with
pad = 0. -/
def Obligations.PaddingIsOneZeroByte : Prop :=
  ∀ d : List Byte, padInput .sevenFour d = (d, false) ∧
    (d.length % 2 = 1 → padInput .fifteenEleven d = (d ++ [0x00], true)) ∧
    (d.length % 2 = 0 → padInput .fifteenEleven d = (d, false))

/-- R43: the bytes of the chunks, in order, are the bytes the chunks came from. -/
def Obligations.ChunkBytesInvertChunking : Prop :=
  ∀ (f : Family) (d : List Byte), d.length % chunkBytes f = 0 →
    (chunks f d).flatMap (fun x => bytesOfChunk f (x.1 ++ [x.2])) = d

/-- R131, R133, R138: COMPRESS of an input within capacity completes under valid tables, with one base and one deviation
per chunk, the pad flag of R132, and as deviation i the syndrome DECODE gives chunk i's window, then its carry. -/
def Obligations.CompressAnswersOneEntryPerChunk : Prop :=
  ∀ (f : Family) (s : State) (data : List Byte), tableValid f (s.tables.of f) = true → Fits s (bytesLoad data) →
    ∃ cs : CompressedStream,
      exec (compressOf f data) s = .next { s.afterOk (.stream cs) with dedup := none } ∧
      cs.bases.length = chunkCount f data ∧ cs.deviations.length = chunkCount f data ∧
      cs.pad = (decide (f = .fifteenEleven) && decide (data.length % 2 = 1)) ∧
      ∀ (i : Nat) (w : Bits) (carry : Bit), (chunks f (padInput f data).1)[i]? = some (w, carry) →
        ∃ b e : Bits, decodeBlock s.tables (some f) w = .ok (b, e) ∧ cs.deviations[i]? = some (e ++ [carry]) ∧
          (e ++ [carry]).length = deviationLen f

/-- R134, R141: the deduplication properties (a) to (d) of every COMPRESS output: references point back at the literal
of their own base, there is one literal per distinct base, no two literals are equal, and every entry resolves to the
base that DECODE gives its chunk. -/
def Obligations.CompressDeduplicatesBases : Prop :=
  ∀ (f : Family) (s : State) (data : List Byte), tableValid f (s.tables.of f) = true → Fits s (bytesLoad data) →
    ∃ cs : CompressedStream,
      exec (compressOf f data) s = .next { s.afterOk (.stream cs) with dedup := none } ∧
      (∀ i j : Nat, cs.bases[i]? = some (.reference j) →
        j < i ∧ ∃ b : Bits, (decodedBases s.tables f data)[i]? = some b ∧ cs.bases[j]? = some (.literal b)) ∧
      (literals cs.bases).length = (decodedBases s.tables f data).dedup.length ∧
      (literals cs.bases).Nodup ∧
      (cs.bases.length = (decodedBases s.tables f data).length ∧
        ∀ (i : Nat) (e : BaseEntry) (b : Bits), cs.bases[i]? = some e →
          (decodedBases s.tables f data)[i]? = some b → StandsFor cs.bases e b)

/-- R26: at no point of a COMPRESS does the dedup table hold more than 2^k(f) entries, and its keys are distinct k-bit
vectors (the points are the ends of the loop over every sequence of n-bit windows). -/
def Obligations.DedupTableIsBounded : Prop :=
  ∀ (f : Family) (s : State) (xs : List (Bits × Bit)) (dt : DedupTable), (∀ x ∈ xs, x.1.length = blockLen f) →
    (compressLoop f xs ⟨[], []⟩ s.openDedup).2.dedup = some dt →
    (dt.map Prod.fst).Nodup ∧ (∀ x ∈ dt, x.1.length = messageLen f) ∧ dt.length ≤ 2 ^ messageLen f

/-- R136, R137, R139: DECOMPRESS of a stream that passes validation completes under valid tables: entry i gives the
chunk `correct_core(ENCODE(literal i), syndrome part of deviation i)` followed by the carry bit, the chunks become bytes
in entry order, and the last byte is dropped exactly when pad = 1. -/
def Obligations.DecompressRebuildsEveryEntry : Prop :=
  ∀ (f : Family) (s : State) (cs : CompressedStream), tableValid f (s.tables.of f) = true → StreamOk f cs →
    Fits s (streamLoad cs) →
    Fits s [(.maxStreamBytes, chunkBytes f * cs.bases.length - cs.pad.toNat)] →
    ∃ ys : List Bits, ys.length = cs.bases.length ∧
      exec (decompressOf f cs) s = .next (s.afterOk (.bytes
        (if cs.pad then (ys.flatMap (bytesOfChunk f)).dropLast else ys.flatMap (bytesOfChunk f)))) ∧
      ∀ (i : Nat) (e : BaseEntry) (dev lit : Bits), cs.bases[i]? = some e → cs.deviations[i]? = some dev →
        StandsFor cs.bases e lit →
        ∃ c y : Bits, vmm lit (s.tables.of f).G = .ok c ∧ ys[i]? = some (y ++ dev.drop (syndromeLen f)) ∧
          (dev.take (syndromeLen f) = zeros (syndromeLen f) → y = c) ∧
          (∀ j, j < blockLen f → col (s.tables.of f).H j = dev.take (syndromeLen f) → y = flipBit c j)

/-- R136, R163: a stream that fails validation raises the first failing check's error and returns nothing: unequal
lengths and an illegal pad flag first (MalformedStream, 6), then entry by entry a reference that is out of range or
points at a reference (6), a literal of the wrong width (InvalidLength, 2), a deviation of the wrong width (6). -/
def Obligations.DecompressReportsTheFirstFailingCheck : Prop :=
  ∀ (f : Family) (s : State) (cs : CompressedStream), Fits s (streamLoad cs) →
    (¬ HeaderOk f cs → exec (decompressOf f cs) s = .next (s.afterFault 6)) ∧
    (∀ (i : Nat) (e : BaseEntry) (dev : Bits), HeaderOk f cs → (∀ i', i' < i → EntryOk f cs i') → cs.bases[i]? = some e →
      cs.deviations[i]? = some dev →
      ((∀ lit, ¬ StandsFor cs.bases e lit) → exec (decompressOf f cs) s = .next (s.afterFault 6)) ∧
      (∀ lit, StandsFor cs.bases e lit → lit.length ≠ messageLen f →
        exec (decompressOf f cs) s = .next (s.afterFault 2)) ∧
      (∀ lit, StandsFor cs.bases e lit → lit.length = messageLen f → dev.length ≠ deviationLen f →
        exec (decompressOf f cs) s = .next (s.afterFault 6)))

/-- R140, losslessness: for every family with a valid table and every byte stream within capacity, DECOMPRESS of what
COMPRESS answers gives the stream back. -/
def Obligations.CompressThenDecompressRestores : Prop :=
  ∀ (f : Family) (s : State) (data : List Byte), tableValid f (s.tables.of f) = true → Fits s (bytesLoad data) →
    Fits s [(.maxStreamEntries, chunkCount f data)] →
    ∃ (t : State) (cs : CompressedStream),
      exec (compressOf f data) s = .next t ∧ t.lastResponse = some (.ok (.stream cs)) ∧
      exec (decompressOf f cs) t = .next (t.afterOk (.bytes data))

/-- R142: under a valid table two windows share a base exactly when they correct to the same word, and every base value
stands for 2^m windows. -/
def Obligations.BasesAreHammingSpheres : Prop :=
  ∀ (f : Family) (tables : CodeTables), tableValid f (tables.of f) = true →
    (∀ w w' : Bits, w.length = blockLen f → w'.length = blockLen f →
      ∃ e e' c c' : Bits, syndrome tables f w = .ok e ∧ syndrome tables f w' = .ok e' ∧
        correctCore tables f w e = .ok c ∧ correctCore tables f w' e' = .ok c' ∧
        (decodedBase tables f w = decodedBase tables f w' ↔ c = c')) ∧
    (∀ b : Bits, b.length = messageLen f →
      ((allBits (blockLen f)).filter fun w => decodedBase tables f w == b).length = 2 ^ syndromeLen f)

/-! ### Host programs -/

/-- R72, R73: a run ends in one of two ways. `Finished`: every command was answered `Ok`, and the results are the
responses in order. `Faulted(CI, code)`: the commands before CI were answered `Ok`, command CI raised the code, and no
later command was issued. Response j is the one the engine gives the request of command j alone, with every reference
replaced by the result it names. -/
def Obligations.RunsFinishOrStopAtTheFirstFault : Prop :=
  ∀ (p : Program) (s t : State) (out : RunEnd), runProgram p s = some (t, out) →
    (∀ results, out = .finished results →
      results.length = p.length ∧ (t.outbox = s.outbox ++ results.map fun r => .response (.ok r)) ∧
      ∀ (j : Nat) (r : Result), results[j]? = some r → CommandAnswers p s (results.take j) j (.ok r)) ∧
    (∀ ci code, out = .faulted ci code →
      ci < p.length ∧ ∃ results : List Result, results.length = ci ∧
        t.outbox = s.outbox ++ (results.map fun r => .response (.ok r)) ++ [.response (.fault code)] ∧
        (∀ (j : Nat) (r : Result), results[j]? = some r → CommandAnswers p s (results.take j) j (.ok r)) ∧
        CommandAnswers p s results ci (.fault code))

/-- R72: the assembler's checks are enough: a program it accepts always has a value for every reference, so in an engine
without capacity bounds it runs to one of the two ends of R73. Which operands the assembler checks is the model's
reading (notes/assumptions/18.md), and so is that a run with a refused request has no end, which is why engines with
capacity bounds are left out (notes/assumptions/19.md). -/
def Obligations.AdmittedProgramsRun : Prop :=
  ∀ (p : Program) (s : State), programAdmitted p = true → s.capacities = .unbounded →
    ∃ t out, runProgram p s = some (t, out)

/-- R69: every command's written name is read back as that command, and its word is the one of R65. -/
def Obligations.WrittenNamesAreReadBack : Prop :=
  (∀ c : Command, commandNamed (writtenName c).toList = some c) ∧
  allCommands.map (fun c => (Command.word c).toNat) =
    [0x00, 0x10, 0x20, 0x30, 0x40, 0x44, 0x48, 0x50, 0x54, 0x58, 0x60, 0x64, 0x68, 0x74, 0x78, 0x84, 0x88]

/-! ### More of the pipeline -/

/-- R6 (D22): a DECOMPRESS whose output would be past MaxStreamBytes is refused: with valid tables and a stream that
passes validation, the output has one or two bytes per entry, less the padding byte. That the refusal comes after
validation is the model's reading (notes/assumptions/8.md). -/
def Obligations.DecompressOutputsPastACapacityAreRefused : Prop :=
  ∀ (f : Family) (s : State) (cs : CompressedStream) (bound : Nat), tableValid f (s.tables.of f) = true →
    StreamOk f cs → Fits s (streamLoad cs) → s.capacities.maxStreamBytes = some bound →
    bound < chunkBytes f * cs.bases.length - cs.pad.toNat →
    exec (decompressOf f cs) s = .refused (.overCapacity .maxStreamBytes)

/-- R107, R137, R138, R139, R160, R162: over any table, a syndrome that no column of H equals ends the pipeline commands
with UncorrectableSyndrome (code 4), no result and no dedup table: COMPRESS at the first chunk that DECODE does not
accept, when its window has such a syndrome, and DECOMPRESS of a stream that passes validation at the first entry that
does not rebuild, when the syndrome part of its deviation is such a one. -/
def Obligations.UnmatchedSyndromeEndsThePipeline : Prop :=
  ∀ (f : Family) (s : State) (i : Nat),
    (∀ (data : List Byte) (w e : Bits) (carry : Bit), Fits s (bytesLoad data) →
      (chunks f (padInput f data).1)[i]? = some (w, carry) → mvm (s.tables.of f).H w = .ok e → Unmatched s f e →
      (∀ (i' : Nat) (x : Bits × Bit), i' < i → (chunks f (padInput f data).1)[i']? = some x →
        ∃ r, exec (decodeOf f x.1) s = .next (s.afterOk r)) →
      exec (compressOf f data) s = .next { s.afterFault 4 with dedup := none }) ∧
    (∀ (cs : CompressedStream) (entry : BaseEntry) (lit dev c : Bits), Fits s (streamLoad cs) → StreamOk f cs →
      cs.bases[i]? = some entry → cs.deviations[i]? = some dev → StandsFor cs.bases entry lit →
      vmm lit (s.tables.of f).G = .ok c → Unmatched s f (dev.take (syndromeLen f)) →
      (∀ (i' : Nat) (entry' : BaseEntry) (lit' dev' : Bits), i' < i → cs.bases[i']? = some entry' →
        cs.deviations[i']? = some dev' → StandsFor cs.bases entry' lit' →
        ∃ y, rebuildEntry s.tables f lit' dev' = .ok y) →
      exec (decompressOf f cs) s = .next (s.afterFault 4))
end

