-- ==== Sys2Proof/Laws/Algebra.lean ====
section
/-! SUPPORT. The small lemmas of the GF(2) operations: lengths, when a product is defined, flips, and the enumeration of
bit vectors. -/

namespace Sys2Proof.Machine

/-! ### Lengths -/

@[simp] theorem length_zeros (n : Nat) : (zeros n).length = n := by simp [zeros]

@[simp] theorem length_xorBits (v w : Bits) : (xorBits v w).length = min v.length w.length := by simp [xorBits]

@[simp] theorem length_flipBit (v : Bits) (j : Nat) : (flipBit v j).length = v.length := by
  induction v generalizing j with
  | nil => rfl
  | cons b v ih => cases j <;> simp [flipBit, ih]

@[simp] theorem length_byteToBits (b : Byte) : (byteToBits b).length = 8 := by simp [byteToBits]

@[simp] theorem length_col (m : Matrix) (j : Nat) : (col m j).length = m.rows.length := by simp [col]

@[simp] theorem length_columns (m : Matrix) : (columns m).length = m.c := by simp [columns]

@[simp] theorem length_unitBits (n i : Nat) : (unitBits n i).length = n := by simp [unitBits]

theorem length_xorSelected {n : Nat} (v : Bits) (rows : List Bits) (out : Bits)
    (hr : ∀ row ∈ rows, row.length = n) (ho : out.length = n) : (xorSelected v rows out).length = n := by
  induction v generalizing rows out with
  | nil => simpa [xorSelected] using ho
  | cons b v ih =>
    cases rows with
    | nil => simpa [xorSelected] using ho
    | cons row rows =>
      simp only [xorSelected]
      refine ih rows _ (fun r hm => hr r (List.mem_cons_of_mem _ hm)) ?_
      cases b <;> simp [ho, hr row (by simp)]

/-! ### Matrices and products -/

/-- What a well-formed matrix is (R80). -/
theorem matrixOk_iff (m : Matrix) : matrixOk m = true ↔ m.rows.length = m.r ∧ ∀ row ∈ m.rows, row.length = m.c := by
  simp [matrixOk]

/-- When VMM gives a result, and which (R83). -/
theorem vmm_eq_ok_iff (v : Bits) (m : Matrix) (out : Bits) :
    vmm v m = .ok out ↔ matrixOk m = true ∧ v.length = m.r ∧ out = xorSelected v m.rows (zeros m.c) := by
  unfold vmm
  by_cases h : matrixOk m = true
  · by_cases hl : v.length = m.r
    · simp [h, hl, eq_comm]
    · simp [h, hl]
  · simp [h]

/-- When MVM gives a result, and which (R84). -/
theorem mvm_eq_ok_iff (m : Matrix) (v : Bits) (out : Bits) :
    mvm m v = .ok out ↔ matrixOk m = true ∧ v.length = m.c ∧ out = m.rows.map fun row => dot row v := by
  unfold mvm
  by_cases h : matrixOk m = true
  · by_cases hl : v.length = m.c
    · simp [h, hl, eq_comm]
    · simp [h, hl]
  · simp [h]

/-- VMM and MVM raise nothing but DimensionMismatch (R83). -/
theorem vmm_eq_error {v : Bits} {m : Matrix} {e : ErrorKind} (h : vmm v m = .error e) : e = .dimensionMismatch := by
  unfold vmm at h
  split at h
  · cases h; rfl
  · split at h <;> cases h; rfl

/-- VMM and MVM raise nothing but DimensionMismatch (R84). -/
theorem mvm_eq_error {v : Bits} {m : Matrix} {e : ErrorKind} (h : mvm m v = .error e) : e = .dimensionMismatch := by
  unfold mvm at h
  split at h
  · cases h; rfl
  · split at h <;> cases h; rfl

theorem vmm_length {v out : Bits} {m : Matrix} (h : vmm v m = .ok out) : out.length = m.c := by
  obtain ⟨hm, _, rfl⟩ := (vmm_eq_ok_iff v m out).1 h
  exact length_xorSelected v m.rows _ ((matrixOk_iff m).1 hm).2 (by simp)

theorem mvm_length {v out : Bits} {m : Matrix} (h : mvm m v = .ok out) : out.length = m.r := by
  obtain ⟨hm, _, rfl⟩ := (mvm_eq_ok_iff m v out).1 h
  simpa using ((matrixOk_iff m).1 hm).1

/-! ### Flips -/

/-- Flipping the same position twice restores the vector. -/
@[simp] theorem flipBit_flipBit (v : Bits) (j : Nat) : flipBit (flipBit v j) j = v := by
  induction v generalizing j with
  | nil => rfl
  | cons b v ih => cases j <;> simp [flipBit, ih]

theorem bitAt_flipBit_ne (v : Bits) {i j : Nat} (h : i ≠ j) : bitAt (flipBit v j) i = bitAt v i := by
  induction v generalizing i j with
  | nil => rfl
  | cons b v ih =>
    cases j with
    | zero => cases i with
      | zero => exact absurd rfl h
      | succ i => simp [flipBit, bitAt]
    | succ j => cases i with
      | zero => simp [flipBit, bitAt]
      | succ i => simpa [flipBit, bitAt] using ih (i := i) (j := j) (by omega)

theorem bitAt_flipBit_self (v : Bits) {j : Nat} (h : j < v.length) : bitAt (flipBit v j) j = !bitAt v j := by
  induction v generalizing j with
  | nil => simp at h
  | cons b v ih =>
    cases j with
    | zero => simp [flipBit, bitAt]
    | succ j => simpa [flipBit, bitAt] using ih (j := j) (by simpa using h)

/-! ### Enumeration -/

/-- `allBits` holds exactly the vectors of its length. -/
theorem mem_allBits (n : Nat) (v : Bits) : v ∈ allBits n ↔ v.length = n := by
  induction n generalizing v with
  | zero => simp [allBits]
  | succ n ih =>
    cases v with
    | nil => simp [allBits]
    | cons b v => cases b <;> simp [allBits, ih]

@[simp] theorem length_allBits (n : Nat) : (allBits n).length = 2 ^ n := by
  induction n with
  | zero => rfl
  | succ n ih => simp [allBits, ih, Nat.pow_succ, Nat.mul_two]

theorem nodup_allBits (n : Nat) : (allBits n).Nodup := by
  induction n with
  | zero => simp [allBits]
  | succ n ih =>
    refine List.Nodup.append ?_ ?_ ?_
    · exact ih.map fun a b h => by simpa using h
    · exact ih.map fun a b h => by simpa using h
    · intro v h1 h2
      obtain ⟨a, _, rfl⟩ := List.mem_map.1 h1
      obtain ⟨b, _, h⟩ := List.mem_map.1 h2
      simp at h

end Sys2Proof.Machine
end

