-- ==== Sys2Proof/Laws/State.lean ====
section
/-! SUPPORT. The fields of the state after each update: one lemma per field per update, each true by rfl, so that no
proof unfolds a record update. -/

namespace Sys2Proof.Machine

variable (s : State) (d : Delivery) (r : Result) (e : ErrorKind) (b : Bits) (j : Nat) (q : Request) (c : Config)

/-! ### `deliver` -/

@[simp] theorem deliver_status : (s.deliver d).status = s.status := rfl
@[simp] theorem deliver_tables : (s.deliver d).tables = s.tables := rfl
@[simp] theorem deliver_capacities : (s.deliver d).capacities = s.capacities := rfl
@[simp] theorem deliver_dedup : (s.deliver d).dedup = s.dedup := rfl
@[simp] theorem deliver_inbox : (s.deliver d).inbox = s.inbox := rfl
@[simp] theorem deliver_outbox : (s.deliver d).outbox = s.outbox ++ [d] := rfl

/-! ### `returnOk` -/

@[simp] theorem returnOk_status : (s.returnOk r).status = completionStatus 0 := rfl
@[simp] theorem returnOk_tables : (s.returnOk r).tables = s.tables := rfl
@[simp] theorem returnOk_capacities : (s.returnOk r).capacities = s.capacities := rfl
@[simp] theorem returnOk_dedup : (s.returnOk r).dedup = s.dedup := rfl
@[simp] theorem returnOk_inbox : (s.returnOk r).inbox = s.inbox := rfl
@[simp] theorem returnOk_outbox : (s.returnOk r).outbox = s.outbox ++ [.response (.ok r)] := rfl

/-! ### `raise` -/

@[simp] theorem raise_status : (s.raise e).status = completionStatus (errorCode e) := rfl
@[simp] theorem raise_tables : (s.raise e).tables = s.tables := rfl
@[simp] theorem raise_capacities : (s.raise e).capacities = s.capacities := rfl
@[simp] theorem raise_dedup : (s.raise e).dedup = s.dedup := rfl
@[simp] theorem raise_inbox : (s.raise e).inbox = s.inbox := rfl
@[simp] theorem raise_outbox : (s.raise e).outbox = s.outbox ++ [.response (.fault (errorCode e))] := rfl

/-! ### `finish` -/

@[simp] theorem finish_ok : s.finish (.ok r) = s.returnOk r := rfl
@[simp] theorem finish_error : s.finish (.error e) = s.raise e := rfl

@[simp] theorem finish_tables (a : Checked Result) : (s.finish a).tables = s.tables := by cases a <;> rfl
@[simp] theorem finish_capacities (a : Checked Result) : (s.finish a).capacities = s.capacities := by cases a <;> rfl
@[simp] theorem finish_dedup (a : Checked Result) : (s.finish a).dedup = s.dedup := by cases a <;> rfl
@[simp] theorem finish_inbox (a : Checked Result) : (s.finish a).inbox = s.inbox := by cases a <;> rfl

/-! ### The dedup table -/

@[simp] theorem openDedup_status : s.openDedup.status = s.status := rfl
@[simp] theorem openDedup_tables : s.openDedup.tables = s.tables := rfl
@[simp] theorem openDedup_capacities : s.openDedup.capacities = s.capacities := rfl
@[simp] theorem openDedup_dedup : s.openDedup.dedup = some [] := rfl
@[simp] theorem openDedup_inbox : s.openDedup.inbox = s.inbox := rfl
@[simp] theorem openDedup_outbox : s.openDedup.outbox = s.outbox := rfl

@[simp] theorem closeDedup_status : s.closeDedup.status = s.status := rfl
@[simp] theorem closeDedup_tables : s.closeDedup.tables = s.tables := rfl
@[simp] theorem closeDedup_capacities : s.closeDedup.capacities = s.capacities := rfl
@[simp] theorem closeDedup_dedup : s.closeDedup.dedup = none := rfl
@[simp] theorem closeDedup_inbox : s.closeDedup.inbox = s.inbox := rfl
@[simp] theorem closeDedup_outbox : s.closeDedup.outbox = s.outbox := rfl

@[simp] theorem dedupInsert_status : (s.dedupInsert b j).status = s.status := rfl
@[simp] theorem dedupInsert_tables : (s.dedupInsert b j).tables = s.tables := rfl
@[simp] theorem dedupInsert_capacities : (s.dedupInsert b j).capacities = s.capacities := rfl
@[simp] theorem dedupInsert_dedup : (s.dedupInsert b j).dedup = some ((s.dedup.getD []) ++ [(b, j)]) := rfl
@[simp] theorem dedupInsert_inbox : (s.dedupInsert b j).inbox = s.inbox := rfl
@[simp] theorem dedupInsert_outbox : (s.dedupInsert b j).outbox = s.outbox := rfl

/-! ### The request channel and reset -/

@[simp] theorem issue_status : (s.issue q).status = s.status := rfl
@[simp] theorem issue_tables : (s.issue q).tables = s.tables := rfl
@[simp] theorem issue_capacities : (s.issue q).capacities = s.capacities := rfl
@[simp] theorem issue_dedup : (s.issue q).dedup = s.dedup := rfl
@[simp] theorem issue_inbox : (s.issue q).inbox = .request q :: s.inbox := rfl
@[simp] theorem issue_outbox : (s.issue q).outbox = s.outbox := rfl

@[simp] theorem initial_status : (State.initial c).status = 0x00 := rfl
@[simp] theorem initial_tables : (State.initial c).tables = c.tables := rfl
@[simp] theorem initial_capacities : (State.initial c).capacities = c.capacities := rfl
@[simp] theorem initial_dedup : (State.initial c).dedup = none := rfl
@[simp] theorem initial_inbox : (State.initial c).inbox = [] := rfl
@[simp] theorem initial_outbox : (State.initial c).outbox = [] := rfl

@[simp] theorem reset_tables : State.reset.tables = defaultTables := rfl
@[simp] theorem reset_capacities : State.reset.capacities = .unbounded := rfl

end Sys2Proof.Machine
end

