-- ==== Sys2Proof/Laws/Ops.lean ====
section
/-! SUPPORT. What each shared operation of Machine/Ops.lean and Machine/Operands.lean can do, said once. -/

namespace Sys2Proof.Machine

/-! ### STATUS -/

theorem completionStatus_zero : completionStatus 0 = 0x10 := by decide

theorem completionStatus_eq (code : BitVec 4) : completionStatus code = 0x10 ||| code.setWidth 8 := by
  revert code; decide

theorem statusLegal_completion (e : ErrorKind) : statusLegal (completionStatus (errorCode e)) = true := by
  cases e <;> decide

theorem statusLegal_ok : statusLegal (completionStatus 0) = true := by decide

/-! ### Completion -/

theorem returnOk_eq_afterOk (s : State) (r : Result) : s.returnOk r = s.afterOk r := by
  rw [State.returnOk, completionStatus_zero]; rfl

theorem raise_eq_afterFault (s : State) (e : ErrorKind) : s.raise e = s.afterFault (errorCode e) := by
  simp [State.raise, State.deliver, State.afterFault, completionStatus_eq]

/-- The response that a command's answer gives (R31). -/
def responseOf : Checked Result → Response
  | .ok r => .ok r
  | .error e => .fault (errorCode e)

/-- Completing a command writes STATUS and gives one response, and does nothing else (R24). -/
theorem finish_eq_afterResponse (s : State) (a : Checked Result) : s.finish a = s.afterResponse (responseOf a) := by
  cases a with
  | ok r => exact returnOk_eq_afterOk s r
  | error e => exact raise_eq_afterFault s e

theorem finish_outbox (s : State) (a : Checked Result) :
    (s.finish a).outbox = s.outbox ++ [.response (responseOf a)] := by
  cases a <;> rfl

theorem finish_lastResponse (s : State) (a : Checked Result) : (s.finish a).lastResponse = some (responseOf a) := by
  simp [State.lastResponse, finish_outbox]

theorem finish_statusLegal (s : State) (a : Checked Result) : statusLegal (s.finish a).status = true := by
  cases a with
  | ok r => exact statusLegal_ok
  | error e => exact statusLegal_completion e

/-! ### Capacities -/

theorem pastLimit_eq_false (limit : Option Nat) (n : Nat) :
    pastLimit limit n = false ↔ ∀ b, limit = some b → n ≤ b := by
  cases limit <;> simp [pastLimit]

/-- A load exceeds nothing exactly when it fits. -/
theorem exceeded_eq_none (s : State) (load : Load) : exceeded s.capacities load = none ↔ Fits s load := by
  induction load with
  | nil => simp [exceeded, Fits]
  | cons x rest ih =>
    obtain ⟨c, n⟩ := x
    by_cases h : pastLimit (s.capacities.limit c) n = true
    · simp only [exceeded, h, if_true, reduceCtorEq, false_iff]
      intro hf
      have := (pastLimit_eq_false _ _).2 (hf c n (by simp))
      simp [h] at this
    · rw [Bool.not_eq_true] at h
      simp only [exceeded, h, Bool.false_eq_true, if_false, ih]
      have h' := (pastLimit_eq_false _ _).1 h
      constructor
      · intro hf c' n' hm
        rcases List.mem_cons.1 hm with heq | hm
        · cases heq; exact h'
        · exact hf c' n' hm
      · intro hf c' n' hm
        exact hf c' n' (List.mem_cons_of_mem _ hm)

/-- A load that fits goes on. -/
theorem within_of_fits {s : State} {load : Load} (h : Fits s load) (o : Host.Outcome State Fault Refusal) :
    s.within load o = o := by
  simp [State.within, (exceeded_eq_none s load).2 h]

/-- What `within` can do: go on with a load that fits, or refuse. -/
theorem within_cases (s : State) (load : Load) (o : Host.Outcome State Fault Refusal) :
    (Fits s load ∧ s.within load o = o) ∨ ∃ c, s.within load o = .refused (.overCapacity c) := by
  cases h : exceeded s.capacities load with
  | none => exact .inl ⟨(exceeded_eq_none s load).1 h, by simp [State.within, h]⟩
  | some c => exact .inr ⟨c, by simp [State.within, h]⟩

/-- If `within` answers a next state, the load fits and that is the state it was given. -/
theorem within_eq_next {s t u : State} {load : Load} (h : s.within load (.next u) = .next t) :
    Fits s load ∧ t = u := by
  rcases within_cases s load (.next u) with ⟨hf, he⟩ | ⟨c, he⟩
  · rw [he] at h; cases h; exact ⟨hf, rfl⟩
  · rw [he] at h; cases h

theorem within_of_exceeded {s : State} {load : Load} {c : Capacity} (h : exceeded s.capacities load = some c)
    (o : Host.Outcome State Fault Refusal) : s.within load o = .refused (.overCapacity c) := by
  simp [State.within, h]

/-- The check goes on past what fits. -/
theorem exceeded_append_of_fits {s : State} {load : Load} (h : Fits s load) (more : Load) :
    exceeded s.capacities (load ++ more) = exceeded s.capacities more := by
  induction load with
  | nil => rfl
  | cons x rest ih =>
    obtain ⟨c, n⟩ := x
    have hx := (pastLimit_eq_false _ _).2 (h c n (by simp))
    simp only [List.cons_append, exceeded, hx, Bool.false_eq_true, if_false]
    exact ih fun c' n' hm => h c' n' (List.mem_cons_of_mem _ hm)

/-- The first amount past its bound is the one refused. -/
theorem exceeded_cons_of_past {s : State} {c : Capacity} {n bound : Nat} (hb : s.capacities.limit c = some bound)
    (hn : bound < n) (rest : Load) : exceeded s.capacities ((c, n) :: rest) = some c := by
  simp [exceeded, pastLimit, hb, hn]

theorem fits_unbounded {s : State} (h : s.capacities = .unbounded) (load : Load) : Fits s load := by
  intro c n _ b hb
  rw [h] at hb
  cases c <;> simp [Capacities.limit, Capacities.unbounded] at hb

/-! ### Selection by length (R106) -/

theorem select_explicit (f : Family) (dim : Family → Nat) : select (some f) (dim f) dim = .ok f := by
  simp [select]

theorem select_explicit_wrong {f : Family} {len : Nat} {dim : Family → Nat} (h : len ≠ dim f) :
    select (some f) len dim = .error .invalidLength := by
  simp [select, h]

theorem select_auto_message (f : Family) : select none (messageLen f) messageLen = .ok f := by cases f <;> rfl

theorem select_auto_block (f : Family) : select none (blockLen f) blockLen = .ok f := by cases f <;> rfl

theorem select_auto_wrong {len : Nat} {dim : Family → Nat} (h : ∀ f, len ≠ dim f) :
    select none len dim = .error .unsupportedCodeLength := by
  simp [select, h]

/-- What selection can do: it answers a family whose length is the operand's, or one of two errors. -/
theorem select_eq_ok {sel : Option Family} {len : Nat} {dim : Family → Nat} {f : Family}
    (h : select sel len dim = .ok f) : len = dim f ∧ (sel = none ∨ sel = some f) := by
  unfold select at h
  split at h
  · split at h
    · cases h; exact ⟨‹_›, .inl rfl⟩
    · split at h
      · cases h; exact ⟨‹_›, .inl rfl⟩
      · cases h
  · split at h
    · cases h
    · cases h; exact ⟨by omega, .inr rfl⟩

end Sys2Proof.Machine
end

