-- ==== Sys2Proof/Laws/Code.lean ====
section
/-! SUPPORT. The block code: what a valid table gives (R105), what syndrome resolution can do (R107), and what ENCODE,
DECODE and CORRECT compute when their lengths are right. -/

namespace Sys2Proof.Machine

/-! ### Family parameters -/

theorem messageLen_add_syndromeLen (f : Family) : messageLen f + syndromeLen f = blockLen f := by cases f <;> rfl

theorem two_pow_syndromeLen (f : Family) : 2 ^ syndromeLen f = blockLen f + 1 := by cases f <;> rfl

/-! ### Valid tables -/

/-- V1 to V5 of R105 as propositions. -/
theorem tableValid_iff (f : Family) (t : CodeTable) :
    tableValid f t = true ↔ shapesOk f t = true ∧ columnsOk f t = true ∧ orthogonalOk f t = true ∧
      fullRankOk f t = true ∧ identityOk f t = true := by
  simp [tableValid, and_assoc]

/-- V1 as propositions. -/
theorem shapesOk_iff (f : Family) (t : CodeTable) :
    shapesOk f t = true ↔ t.n = blockLen f ∧ t.k = messageLen f ∧
      matrixOk t.G = true ∧ t.G.r = messageLen f ∧ t.G.c = blockLen f ∧
      matrixOk t.H = true ∧ t.H.r = syndromeLen f ∧ t.H.c = blockLen f := by
  simp [shapesOk, and_assoc]

theorem tablesValid_of {tables : CodeTables} (h : tablesValid tables = true) (f : Family) :
    tableValid f (tables.of f) = true := by
  simp only [tablesValid, Bool.and_eq_true] at h
  cases f
  · exact h.1
  · exact h.2

/-- The default tables pass V1 to V5, as R101 and R102 say of them. -/
theorem defaultTables_valid : tablesValid defaultTables = true := by decide +kernel

/-! ### Syndrome resolution -/

/-- What `correct_core` can do (R107). -/
theorem correctCore_eq_ok {tables : CodeTables} {f : Family} {w s c : Bits}
    (h : correctCore tables f w s = .ok c) :
    (s = zeros (syndromeLen f) ∧ c = w) ∨
    (s ≠ zeros (syndromeLen f) ∧ ∃ j, j < blockLen f ∧ col (tables.of f).H j = s ∧ c = flipBit w j) := by
  unfold correctCore at h
  split at h
  · cases h; exact .inl ⟨‹_›, rfl⟩
  · split at h
    · rename_i j hj
      cases h
      refine .inr ⟨‹_›, j, ?_, ?_, rfl⟩
      · exact List.mem_range.1 (List.mem_of_find?_eq_some hj)
      · simpa using List.find?_some hj
    · cases h

theorem correctCore_zero (tables : CodeTables) (f : Family) (w : Bits) :
    correctCore tables f w (zeros (syndromeLen f)) = .ok w := by simp [correctCore]

theorem correctCore_unmatched {s : State} {f : Family} {e : Bits} (h : Unmatched s f e) (w : Bits) :
    correctCore s.tables f w e = .error .uncorrectableSyndrome := by
  have hp : errorPosition s.tables f e = none := by
    rw [errorPosition, List.find?_eq_none]
    intro j hj
    simpa using h.2 j (List.mem_range.1 hj)
  rw [correctCore, if_neg h.1, hp]

theorem correctCore_length {tables : CodeTables} {f : Family} {w s c : Bits}
    (h : correctCore tables f w s = .ok c) : c.length = w.length := by
  rcases correctCore_eq_ok h with ⟨_, rfl⟩ | ⟨_, j, _, _, rfl⟩ <;> simp

/-! ### The three operations when the lengths are right -/

theorem encodeBlock_explicit {tables : CodeTables} {f : Family} {u : Bits} (h : u.length = messageLen f) :
    encodeBlock tables (some f) u = vmm u (tables.of f).G := by
  simp [encodeBlock, h, select_explicit, bind, Except.bind]

theorem encodeBlock_auto {tables : CodeTables} {f : Family} {u : Bits} (h : u.length = messageLen f) :
    encodeBlock tables none u = vmm u (tables.of f).G := by
  simp [encodeBlock, h, select_auto_message, bind, Except.bind]

theorem decodeBlock_auto {tables : CodeTables} {f : Family} {w : Bits} (h : w.length = blockLen f) :
    decodeBlock tables none w = decodeBlock tables (some f) w := by
  simp [decodeBlock, h, select_auto_block, select_explicit]

/-- DECODE, once the syndrome and the corrected word are known (R111). -/
theorem decodeBlock_eq_ok {tables : CodeTables} {f : Family} {w s c : Bits} (h : w.length = blockLen f)
    (hs : syndrome tables f w = .ok s) (hc : correctCore tables f w s = .ok c) :
    decodeBlock tables (some f) w = .ok (dataBits tables f c, s) := by
  simp [decodeBlock, h, select_explicit, hs, hc, bind, Except.bind, pure, Except.pure]

theorem correctBlock_explicit {tables : CodeTables} {f : Family} {w s : Bits} (h : w.length = blockLen f)
    (hs : s.length = syndromeLen f) : correctBlock tables (some f) w s = correctCore tables f w s := by
  simp [correctBlock, h, select_explicit, hs, bind, Except.bind]

theorem correctBlock_auto {tables : CodeTables} {f : Family} {w s : Bits} (h : w.length = blockLen f) :
    correctBlock tables none w s = correctBlock tables (some f) w s := by
  simp [correctBlock, h, select_auto_block, select_explicit]

/-- `data(f, c)` has k bits (R100). -/
@[simp] theorem length_dataBits (tables : CodeTables) (f : Family) (c : Bits) :
    (dataBits tables f c).length = messageLen f := by
  unfold dataBits dataPositions
  split <;> simp

end Sys2Proof.Machine
end

