-- ==== Sys2Proof/Laws/Gdd.lean ====
section
/-! SUPPORT. The GDD pipeline: what the dedup step and the compression loop can do to the state, and what validation and
reconstruction do entry by entry. -/

namespace Sys2Proof.Machine

/-! ### Chunks -/

/-- A chunk has one bit more than its code window (R41, R42). -/
theorem length_of_mem_chunkBits (f : Family) : ∀ (d : List Byte) (x : Bits), x ∈ chunkBits f d →
    x.length = blockLen f + 1 := by
  have hb : ∀ b : Byte, (byteToBits b).length = 8 := fun b => rfl
  cases f with
  | sevenFour =>
    intro d x hx
    simp only [chunkBits, List.mem_map] at hx
    obtain ⟨b, -, rfl⟩ := hx
    exact hb b
  | fifteenEleven =>
    intro d
    induction d using List.twoStepInduction with
    | nil => intro x hx; simp [chunkBits] at hx
    | singleton a => intro x hx; simp [chunkBits] at hx
    | cons_cons a b d ih _ =>
      intro x hx
      simp only [chunkBits, List.mem_cons] at hx
      rcases hx with rfl | hx
      · simp [hb, blockLen]
      · exact ih x hx

/-- The code window of a chunk has n bits (R42). -/
theorem length_window {f : Family} {d : List Byte} {x : Bits × Bit} (h : x ∈ chunks f d) :
    x.1.length = blockLen f := by
  obtain ⟨y, hy, rfl⟩ := List.mem_map.1 h
  have := length_of_mem_chunkBits f d y hy
  simp [slice]
  omega

/-! ### Compression -/

/-- The dedup step appends one base entry and one deviation, and changes nothing of the state but the table (R133,
R134). -/
theorem dedupStep_cases (b dev : Bits) (out : Emitted) (s : State) :
    (∃ j, s.dedupLookup b = some j ∧ dedupStep b dev out s = (out.push (.reference j) dev, s)) ∨
    (s.dedupLookup b = none ∧
      dedupStep b dev out s = (out.push (.literal b) dev, s.dedupInsert b out.bases.length)) := by
  cases h : s.dedupLookup b with
  | some j => exact .inl ⟨j, rfl, by simp [dedupStep, h]⟩
  | none => exact .inr ⟨rfl, by simp [dedupStep, h]⟩

theorem dedupStep_frame (b dev : Bits) (out : Emitted) (s : State) :
    (dedupStep b dev out s).2 = { s with dedup := (dedupStep b dev out s).2.dedup } := by
  rcases dedupStep_cases b dev out s with ⟨j, _, h⟩ | ⟨_, h⟩
  · rw [h]
  · rw [h]; rfl

/-- The loop changes nothing of the state but the table. -/
theorem compressLoop_frame (f : Family) (xs : List (Bits × Bit)) (out : Emitted) (s : State) :
    (compressLoop f xs out s).2 = { s with dedup := (compressLoop f xs out s).2.dedup } := by
  induction xs generalizing out s with
  | nil => rfl
  | cons x rest ih =>
    obtain ⟨w, carry⟩ := x
    unfold compressLoop
    split
    · rfl
    · rename_i b syn _
      dsimp only
      rw [ih, dedupStep_frame]

/-- COMPRESS leaves the state with no table, and is otherwise a completion of its answer (R24, R26). -/
theorem compress_eq_finish (f : Family) (data : List Byte) (s : State) :
    ∃ a, compress f data s = { s.finish a with dedup := none } := by
  have h := compressLoop_frame f (chunks f (padInput f data).1) ⟨[], []⟩ s.openDedup
  refine ⟨((compressLoop f (chunks f (padInput f data).1) ⟨[], []⟩ s.openDedup).1.map fun out =>
    .stream ⟨out.bases, out.deviations, (padInput f data).2⟩), ?_⟩
  unfold compress
  dsimp only
  rw [h]
  generalize Except.map _ _ = a
  cases a <;> rfl

/-! ### Decompression -/

/-- Entry by entry (R136): a literal that resolves, of the right width, with a deviation of the right width. -/
theorem validateEntries_cons_ok {f : Family} {bases : List BaseEntry} {e : BaseEntry} {es : List BaseEntry}
    {dev : Bits} {devs : List Bits} {lit : Bits} (hr : resolveBase bases e = .ok lit)
    (hl : lit.length = messageLen f) (hd : dev.length = deviationLen f) :
    validateEntries f bases (e :: es) (dev :: devs) =
      (validateEntries f bases es devs).map fun lits => lit :: lits := by
  rw [validateEntries]
  simp only [hr, hl, hd, bind, Except.bind, pure, Except.pure, ne_eq, not_true_eq_false, if_false]
  cases validateEntries f bases es devs <;> rfl

/-- Resolution of an entry gives the literal it stands for, and nothing else does (R136). -/
theorem resolveBase_eq_ok (bases : List BaseEntry) (e : BaseEntry) (lit : Bits) :
    resolveBase bases e = .ok lit ↔ StandsFor bases e lit := by
  cases e with
  | literal v => simp [resolveBase, StandsFor, eq_comm]
  | reference j =>
    simp only [resolveBase, StandsFor]
    cases h : bases[j]? with
    | none => simp
    | some e' => cases e' <;> simp

theorem resolveBase_error {bases : List BaseEntry} {e : BaseEntry} {k : ErrorKind}
    (h : resolveBase bases e = .error k) : k = .malformedStream := by
  cases e with
  | literal v => cases h
  | reference j =>
    simp only [resolveBase] at h
    split at h <;> cases h; rfl

/-- Validation of good entries gives one literal for each, the one it stands for (R136). -/
theorem validateEntries_ok (f : Family) (bases : List BaseEntry) : ∀ (es : List BaseEntry) (devs : List Bits),
    es.length = devs.length →
    (∀ (i : Nat) (e : BaseEntry) (dev : Bits), es[i]? = some e → devs[i]? = some dev →
      ∃ lit, StandsFor bases e lit ∧ lit.length = messageLen f ∧ dev.length = deviationLen f) →
    ∃ lits, validateEntries f bases es devs = .ok lits ∧ lits.length = es.length ∧
      ∀ (i : Nat) (e : BaseEntry) (lit : Bits), es[i]? = some e → lits[i]? = some lit →
        StandsFor bases e lit ∧ lit.length = messageLen f := by
  intro es
  induction es with
  | nil => exact fun devs _ _ => ⟨[], by simp [validateEntries], rfl, by simp⟩
  | cons e es ih =>
    intro devs hl hp
    cases devs with
    | nil => simp at hl
    | cons dev devs =>
      obtain ⟨lit, hst, hw, hd⟩ := hp 0 e dev rfl rfl
      obtain ⟨lits, hv, hlen, hall⟩ := ih devs (by simpa using hl) fun i e' dev' he hd =>
        hp (i + 1) e' dev' (by simpa using he) (by simpa using hd)
      refine ⟨lit :: lits, ?_, by simp [hlen], ?_⟩
      · rw [validateEntries_cons_ok ((resolveBase_eq_ok _ _ _).2 hst) hw hd, hv]; rfl
      · intro i e' lit' he hl'
        cases i with
        | zero => simp at he hl'; subst he hl'; exact ⟨hst, hw⟩
        | succ i => exact hall i e' lit' (by simpa using he) (by simpa using hl')

/-- Validation of a stream that passes R136 gives its literals, one per entry. -/
theorem validateStream_ok {f : Family} {cs : CompressedStream} (h : StreamOk f cs) :
    ∃ lits, validateStream f cs = .ok lits ∧ lits.length = cs.bases.length ∧
      ∀ (i : Nat) (e : BaseEntry) (lit : Bits), cs.bases[i]? = some e → lits[i]? = some lit →
        StandsFor cs.bases e lit ∧ lit.length = messageLen f := by
  obtain ⟨⟨hlen, hpad⟩, hall⟩ := h
  obtain ⟨lits, hv, hrest⟩ := validateEntries_ok f cs.bases cs.bases cs.deviations hlen fun i e dev he hd => by
    obtain ⟨e', dev', lit, he', hd', hst, hw, hdw⟩ := hall i (List.getElem?_eq_some_iff.1 he).1
    rw [he] at he'; rw [hd] at hd'; cases he'; cases hd'
    exact ⟨lit, hst, hw, hdw⟩
  refine ⟨lits, ?_, hrest⟩
  unfold validateStream
  rw [if_neg (by simpa using hlen), if_neg (by rintro ⟨hp, rfl⟩; exact absurd (hpad hp).1 (by decide)),
    if_neg (by rintro ⟨hp, -, hz⟩; exact (hpad hp).2 hz)]
  exact hv

theorem rebuildEntries_cons {tables : CodeTables} {f : Family} {lit dev y : Bits} {lits devs : List Bits}
    (h : rebuildEntry tables f lit dev = .ok y) :
    rebuildEntries tables f (lit :: lits) (dev :: devs) =
      (rebuildEntries tables f lits devs).map fun rest => bytesOfChunk f y ++ rest := by
  rw [rebuildEntries]
  simp only [h, bind, Except.bind, pure, Except.pure]
  cases rebuildEntries tables f lits devs <;> rfl

end Sys2Proof.Machine
end

