-- ==== Sys2Proof/Laws/Channel.lean ====
section
/-! SUPPORT. What one step can do: the engine's move for each action of the host. -/

namespace Sys2Proof.Machine

theorem step_idle {s : State} (h : s.inbox = []) : step s = .next s := by
  simp [step, advance, h]

theorem step_cons {s : State} {a : HostAction} {rest : List HostAction} (h : s.inbox = a :: rest) :
    step s = takeAction a { s with inbox := rest } := by
  simp [step, advance, h]

theorem takeAction_request (r : Request) (s : State) : takeAction (.request r) s = answerRequest r s := rfl

theorem takeAction_reset {s : State} (h : tablesValid s.tables = true) :
    takeAction .reset s = .next { s with status := 0x00, dedup := none } := by
  simp [takeAction, State.resetEngine, h, State.initial]

theorem answerRequest_ok {r : Request} {i : Instr} (h : decode r = .ok i) (s : State) :
    answerRequest r s = exec i s := by
  simp [answerRequest, h]

theorem answerRequest_error {r : Request} {e : Rejection} (h : decode r = .error e) (s : State) :
    answerRequest r s = .next (s.raise .illegalCommand) := by
  simp [answerRequest, h]

/-- What a step can do, if it answers a next state: stay idle, run the decoded instruction of a request, raise
IllegalCommand, deliver STATUS, ignore a write, or reset an engine with valid tables. -/
theorem step_cases {s t : State} (h : step s = .next t) :
    (s.inbox = [] ∧ t = s) ∨
    (∃ r rest i, s.inbox = .request r :: rest ∧ decode r = .ok i ∧ exec i { s with inbox := rest } = .next t) ∨
    (∃ r rest e, s.inbox = .request r :: rest ∧ decode r = .error e ∧
      t = ({ s with inbox := rest }).raise .illegalCommand) ∨
    (∃ rest, s.inbox = .readStatus :: rest ∧ t = ({ s with inbox := rest }).deliver (.status s.status)) ∨
    (∃ b rest, s.inbox = .writeStatus b :: rest ∧ t = { s with inbox := rest }) ∨
    (∃ rest, s.inbox = .reset :: rest ∧ tablesValid s.tables = true ∧
      t = { s with inbox := rest, status := 0x00, dedup := none }) := by
  cases hi : s.inbox with
  | nil => rw [step_idle hi] at h; cases h; exact .inl ⟨rfl, rfl⟩
  | cons a rest =>
    rw [step_cons hi] at h
    cases a with
    | request r =>
      rw [takeAction_request] at h
      cases hd : decode r with
      | ok i => exact .inr (.inl ⟨r, rest, i, rfl, hd, by rw [← answerRequest_ok hd]; exact h⟩)
      | error e =>
        rw [answerRequest_error hd] at h
        cases h
        exact .inr (.inr (.inl ⟨r, rest, e, rfl, hd, rfl⟩))
    | readStatus => cases h; exact .inr (.inr (.inr (.inl ⟨rest, rfl, rfl⟩)))
    | writeStatus b => cases h; exact .inr (.inr (.inr (.inr (.inl ⟨b, rest, rfl, rfl⟩))))
    | reset =>
      by_cases hv : tablesValid s.tables = true
      · rw [takeAction_reset (s := { s with inbox := rest }) hv] at h
        cases h
        exact .inr (.inr (.inr (.inr (.inr ⟨rest, rfl, hv, rfl⟩))))
      · simp [takeAction, State.resetEngine, hv] at h

end Sys2Proof.Machine
end

