-- ==== Sys2Proof/Laws/PerInstr.lean ====
section
/-! SUPPORT. Facts about every instruction as syntax, one lemma per constructor of `Instr`. -/

namespace Sys2Proof.Laws

/-- The word of a command decodes to that command (R61, R62). -/
theorem decodeWord_word (c : Command) : decodeWord c.word = .ok c := by cases c <;> rfl

/-- The signature of a command (R64), by name. -/
def commandSignature : Command → List OperandType
  | .add | .mul => [.bit, .bit]
  | .vmm => [.bitVec, .matrix]
  | .mvm => [.matrix, .bitVec]
  | .encode | .encode74 | .encode1511 | .decode | .decode74 | .decode1511 => [.bitVec]
  | .correct | .correct74 | .correct1511 => [.bitVec, .bitVec]
  | .compress74 | .compress1511 => [.bytes]
  | .decompress74 | .decompress1511 => [.stream]

/-- The word of a command has that signature. -/
theorem signatureOfWord_word (c : Command) : signatureOfWord c.word = some (commandSignature c) := by
  cases c <;> rfl

/-- A request with a command's word is well formed exactly when its operands have the signature's types (R66). -/
theorem wellFormed_word (c : Command) (os : List Operand) :
    Request.wellFormed ⟨c.word, os⟩ = operandsHaveTypes os (commandSignature c) := by
  simp [Request.wellFormed, signatureOfWord_word]

/-- The encoding of an instruction is a well-formed request whose word decodes to the instruction's command. -/
def EncodedRequest.Statement (i : Instr) : Prop :=
  (encode i).wellFormed = true ∧ decodeWord (encode i).word = .ok i.command

namespace EncodedRequest

theorem add (a b : Bit) : Statement (.add a b) := by
  cases a <;> cases b <;> exact ⟨(wellFormed_word _ _).trans rfl, decodeWord_word _⟩
theorem mul (a b : Bit) : Statement (.mul a b) := by
  cases a <;> cases b <;> exact ⟨(wellFormed_word _ _).trans rfl, decodeWord_word _⟩
theorem vmm (v : Bits) (m : Matrix) : Statement (.vmm v m) := ⟨(wellFormed_word _ _).trans rfl, decodeWord_word _⟩
theorem mvm (m : Matrix) (v : Bits) : Statement (.mvm m v) := ⟨(wellFormed_word _ _).trans rfl, decodeWord_word _⟩
theorem encode (u : Bits) : Statement (.encode u) := ⟨(wellFormed_word _ _).trans rfl, decodeWord_word _⟩
theorem encode74 (u : Bits) : Statement (.encode74 u) := ⟨(wellFormed_word _ _).trans rfl, decodeWord_word _⟩
theorem encode1511 (u : Bits) : Statement (.encode1511 u) := ⟨(wellFormed_word _ _).trans rfl, decodeWord_word _⟩
theorem decode (w : Bits) : Statement (.decode w) := ⟨(wellFormed_word _ _).trans rfl, decodeWord_word _⟩
theorem decode74 (w : Bits) : Statement (.decode74 w) := ⟨(wellFormed_word _ _).trans rfl, decodeWord_word _⟩
theorem decode1511 (w : Bits) : Statement (.decode1511 w) := ⟨(wellFormed_word _ _).trans rfl, decodeWord_word _⟩
theorem correct (w e : Bits) : Statement (.correct w e) := ⟨(wellFormed_word _ _).trans rfl, decodeWord_word _⟩
theorem correct74 (w e : Bits) : Statement (.correct74 w e) := ⟨(wellFormed_word _ _).trans rfl, decodeWord_word _⟩
theorem correct1511 (w e : Bits) : Statement (.correct1511 w e) := ⟨(wellFormed_word _ _).trans rfl, decodeWord_word _⟩
theorem compress74 (d : List Byte) : Statement (.compress74 d) := ⟨(wellFormed_word _ _).trans rfl, decodeWord_word _⟩
theorem compress1511 (d : List Byte) : Statement (.compress1511 d) := ⟨(wellFormed_word _ _).trans rfl, decodeWord_word _⟩
theorem decompress74 (cs : CompressedStream) : Statement (.decompress74 cs) := ⟨(wellFormed_word _ _).trans rfl, decodeWord_word _⟩
theorem decompress1511 (cs : CompressedStream) : Statement (.decompress1511 cs) := ⟨(wellFormed_word _ _).trans rfl, decodeWord_word _⟩

end EncodedRequest

end Sys2Proof.Laws
end

