-- ==== Sys2Proof/Laws/Program.lean ====
section
/-! SUPPORT. Host programs: what one command of a run can do (R72, R73). -/

namespace Sys2Proof.Machine

/-- What a run that ends does with its next command: the references have values, the engine answers, and the run goes on
with the result or stops at the fault. -/
theorem runFrom_cons {ci : Nat} {results : List Result} {c : ProgramCommand} {rest : Program} {s t : State}
    {out : RunEnd} (h : runFrom ci results (c :: rest) s = some (t, out)) :
    ∃ ops u, argValues results c.args = some ops ∧ answerRequest ⟨c.word, ops⟩ s = .next u ∧
      ((∃ r, u.lastResponse = some (.ok r) ∧ runFrom (ci + 1) (results ++ [r]) rest u = some (t, out)) ∨
       (∃ code, u.lastResponse = some (.fault code) ∧ t = u ∧ out = .faulted ci code)) := by
  rw [runFrom] at h
  cases ho : argValues results c.args with
  | none => simp [ho] at h
  | some ops =>
    simp only [ho] at h
    cases ha : answerRequest ⟨c.word, ops⟩ s with
    | fault r => simp [ha] at h
    | refused r => simp [ha] at h
    | next u =>
      simp only [ha] at h
      refine ⟨ops, u, rfl, ha, ?_⟩
      split at h
      · exact .inl ⟨_, ‹_›, h⟩
      · cases h; exact .inr ⟨_, ‹_›, rfl, rfl⟩
      · cases h

theorem runProgram_eq_some {p : Program} {s t : State} {out : RunEnd} (h : runProgram p s = some (t, out)) :
    programAdmitted p = true ∧ runFrom 0 [] p s = some (t, out) := by
  unfold runProgram at h
  split at h
  · exact ⟨‹_›, h⟩
  · cases h

end Sys2Proof.Machine
end

