-- ==== Sys2Proof/Tests/Slice0.lean ====
section
/-! SUPPORT. Tests. Expected values come from spec/95_test_vectors.md (the vector is named beside each) or from the rule
named; the decode tests are words written out from R60 to R62. At the end, for each statement with hypotheses, a
concrete state and operands that meet them. -/

namespace Sys2Proof.Tests

open Sys2Proof Sys2Proof.Machine

/-! ### Helpers -/

/-- The bits of a printed vector. -/
def bits (digits : String) : Bits := digits.toList.map (· == '1')

/-- The response to an instruction right after reset. -/
def answer (i : Instr) : Option Response :=
  match exec i State.reset with
  | .next t => t.lastResponse
  | _ => none

/-- STATUS after one step that takes a request right after reset. -/
def statusAfter (r : Request) : Option Byte :=
  match step (State.reset.issue r) with
  | .next t => some t.status
  | _ => none

/-- The refusal of an instruction, if it is refused. -/
def refusal (i : Instr) (s : State) : Option Refusal :=
  match exec i s with
  | .refused r => some r
  | _ => none

/-- The matrix A of V2. -/
def matrixA : Matrix := ⟨3, 4, [bits "1010", bits "0110", bits "1111"]⟩

/-- A SevenFour table with the Trailing policy: the columns of the default one, data positions last (R100). -/
def trailingSevenFour : CodeTable where
  n := 7
  k := 4
  policy := .trailing
  G := ⟨4, 7, [bits "0111000", bits "1010100", bits "1100010", bits "1110001"]⟩
  H := ⟨3, 7, [bits "1000111", bits "0101011", bits "0011101"]⟩

/-- The default configuration with that table, and an engine that has it. -/
def trailingTables : CodeTables := ⟨trailingSevenFour, defaultFifteenEleven⟩
def trailingState : State := { State.reset with tables := trailingTables }

/-- A SevenFour table that is invalid, as in E3: columns 0 and 1 of H are equal; column `101` is missing. -/
def brokenSevenFour : CodeTable :=
  { defaultSevenFour with H := ⟨3, 7, [bits "0011100", bits "1111010", bits "1101001"]⟩ }
def brokenTables : CodeTables := ⟨brokenSevenFour, defaultFifteenEleven⟩
def brokenState : State := { State.reset with tables := brokenTables }

/-- An engine with bounded capacities. -/
def boundedState : State :=
  { State.reset with capacities := ⟨some 4, some 3, some 4, some 2, some 1⟩ }

/-! ### Decoding: words written out from R60 to R62, OP FAM RSV -/

theorem test_decode_add : decode ⟨0b0000_00_00, [.scalar 1, .scalar 0]⟩ = .ok (.add true false) := by decide
theorem test_decode_mul : decode ⟨0b0001_00_00, [.scalar 0, .scalar 1]⟩ = .ok (.mul false true) := by decide
theorem test_decode_vmm : decode ⟨0b0010_00_00, [.bits [true], .matrix matrixA]⟩ = .ok (.vmm [true] matrixA) := by
  decide
theorem test_decode_mvm : decode ⟨0b0011_00_00, [.matrix matrixA, .bits [true]]⟩ = .ok (.mvm matrixA [true]) := by
  decide
theorem test_decode_encode : decode ⟨0b0100_00_00, [.bits [true]]⟩ = .ok (.encode [true]) := by decide
theorem test_decode_encode74 : decode ⟨0b0100_01_00, [.bits [true]]⟩ = .ok (.encode74 [true]) := by decide
theorem test_decode_encode1511 : decode ⟨0b0100_10_00, [.bits [true]]⟩ = .ok (.encode1511 [true]) := by decide
theorem test_decode_decode : decode ⟨0b0101_00_00, [.bits [true]]⟩ = .ok (.decode [true]) := by decide
theorem test_decode_decode74 : decode ⟨0b0101_01_00, [.bits [true]]⟩ = .ok (.decode74 [true]) := by decide
theorem test_decode_decode1511 : decode ⟨0b0101_10_00, [.bits [true]]⟩ = .ok (.decode1511 [true]) := by decide
theorem test_decode_correct : decode ⟨0b0110_00_00, [.bits [true], .bits []]⟩ = .ok (.correct [true] []) := by decide
theorem test_decode_correct74 : decode ⟨0b0110_01_00, [.bits [true], .bits []]⟩ = .ok (.correct74 [true] []) := by
  decide
theorem test_decode_correct1511 : decode ⟨0b0110_10_00, [.bits [true], .bits []]⟩ = .ok (.correct1511 [true] []) := by
  decide
theorem test_decode_compress74 : decode ⟨0b0111_01_00, [.bytes [0x41]]⟩ = .ok (.compress74 [0x41]) := by decide
theorem test_decode_compress1511 : decode ⟨0b0111_10_00, [.bytes [0x41]]⟩ = .ok (.compress1511 [0x41]) := by decide
theorem test_decode_decompress74 :
    decode ⟨0b1000_01_00, [.stream ⟨[], [], false⟩]⟩ = .ok (.decompress74 ⟨[], [], false⟩) := by decide
theorem test_decode_decompress1511 :
    decode ⟨0b1000_10_00, [.stream ⟨[], [], true⟩]⟩ = .ok (.decompress1511 ⟨[], [], true⟩) := by decide

/-- V9: the illegal words named there. -/
theorem test_decode_illegal_words :
    decodeWord 0x01 = .error .reservedBits ∧ decodeWord 0x04 = .error .illegalFamily ∧
    decodeWord 0x4C = .error .illegalFamily ∧ decodeWord 0x70 = .error .illegalFamily ∧
    decodeWord 0x80 = .error .illegalFamily ∧ decodeWord 0x90 = .error .reservedOp ∧
    decodeWord 0xF0 = .error .reservedOp ∧ decodeWord 0xFF = .error .reservedBits := by decide

/-- The words of the opcode table, as the table numbers them. -/
theorem test_table_words :
    decodeTableWord 8 0x48 = some (.encode1511 (zeros 11)) ∧ decodeTableWord 8 0x84 =
      some (.decompress74 ⟨[], [], false⟩) ∧ decodeTableWord 8 0x4C = none := by decide

/-! ### Well-formedness: an ill-formed request for each check (R65, R66) -/

theorem test_wellFormed_accepts : Request.wellFormed ⟨0x64, [.bits [], .bits [true]]⟩ = true := by decide
theorem test_wellFormed_rsv : Request.wellFormed ⟨0x02, [.scalar 0, .scalar 0]⟩ = false := by decide
theorem test_wellFormed_op : Request.wellFormed ⟨0x90, []⟩ = false := by decide
theorem test_wellFormed_family_of_add : Request.wellFormed ⟨0x08, [.scalar 0, .scalar 0]⟩ = false := by decide
theorem test_wellFormed_family_reserved : Request.wellFormed ⟨0x5C, [.bits []]⟩ = false := by decide
theorem test_wellFormed_compress_auto : Request.wellFormed ⟨0x70, [.bytes []]⟩ = false := by decide
theorem test_wellFormed_count : Request.wellFormed ⟨0x00, [.scalar 0]⟩ = false := by decide
theorem test_wellFormed_extra : Request.wellFormed ⟨0x44, [.bits [], .bits []]⟩ = false := by decide
theorem test_wellFormed_type : Request.wellFormed ⟨0x20, [.matrix matrixA, .matrix matrixA]⟩ = false := by decide
theorem test_wellFormed_scalar : Request.wellFormed ⟨0x00, [.scalar 2, .scalar 1]⟩ = false := by decide
theorem test_wellFormed_no_family_slot : Request.wellFormed ⟨0x74, [.family .sevenFour]⟩ = false := by decide

/-! ### One instruction each -/

/-- V1. -/
theorem test_add : answer (.add true true) = some (.ok (.bit false)) := by decide
/-- V1. -/
theorem test_mul : answer (.mul true false) = some (.ok (.bit false)) := by decide
/-- V2. -/
theorem test_vmm : answer (.vmm (bits "101") matrixA) = some (.ok (.bits (bits "0101"))) := by decide
/-- V2: zero rows give cols(M) zeros. -/
theorem test_vmm_empty : answer (.vmm [] ⟨0, 3, []⟩) = some (.ok (.bits (bits "000"))) := by decide
/-- V2. -/
theorem test_mvm : answer (.mvm matrixA (bits "1101")) = some (.ok (.bits (bits "111"))) := by decide
/-- V2: a ragged matrix. -/
theorem test_mvm_ragged : answer (.mvm ⟨2, 3, [bits "111", bits "11"]⟩ (bits "101")) = some (.fault 1) := by decide
/-- E7. -/
theorem test_encode_unsupported : answer (.encode (bits "10110")) = some (.fault 3) := by decide
/-- V6, by length 11. -/
theorem test_encode : answer (.encode (bits "10110011100")) = some (.ok (.bits (bits "101100111001000"))) := by decide
/-- V3. -/
theorem test_encode74 : answer (.encode74 (bits "1011")) = some (.ok (.bits (bits "1011010"))) := by decide
/-- E7. -/
theorem test_encode74_length : answer (.encode74 (bits "10110")) = some (.fault 2) := by decide
/-- V6. -/
theorem test_encode1511 :
    answer (.encode1511 (bits "01010101010")) = some (.ok (.bits (bits "010101010101010"))) := by decide
/-- V5. -/
theorem test_decode : answer (.decode (bits "1011010")) = some (.ok (.pair (bits "1011") (bits "000"))) := by decide
/-- V5: two flipped bits decode to another codeword. -/
theorem test_decode74 : answer (.decode74 (bits "0111010")) = some (.ok (.pair (bits "0101") (bits "110"))) := by
  decide
/-- E7. -/
theorem test_decode74_length : answer (.decode74 (bits "10110100")) = some (.fault 2) := by decide
/-- V8. -/
theorem test_decode1511 : answer (.decode1511 (bits "000100100011010")) =
    some (.ok (.pair (bits "00011010001") (bits "1001"))) := by decide
/-- V5. -/
theorem test_correct : answer (.correct (bits "1011010") (bits "001")) = some (.ok (.bits (bits "1011011"))) := by
  decide
/-- V5. -/
theorem test_correct74 : answer (.correct74 (bits "1011010") (bits "101")) = some (.ok (.bits (bits "1111010"))) := by
  decide
/-- V5. -/
theorem test_correct74_syndrome_length : answer (.correct74 (bits "1011010") (bits "1010")) = some (.fault 2) := by
  decide
/-- V5. -/
theorem test_correct1511 : answer (.correct1511 (bits "101100111001000") (bits "1111")) =
    some (.ok (.bits (bits "101100111011000"))) := by decide
/-- V11.5: the first and the third chunk share a base. -/
theorem test_compress74 : answer (.compress74 [0xA5, 0x5A, 0xA4]) = some (.ok (.stream
    ⟨[.literal (bits "1011"), .literal (bits "0100"), .reference 0], [bits "1111", bits "1110", bits "1110"],
      false⟩)) := by decide
/-- V12.3: an odd length is padded. -/
theorem test_compress1511 : answer (.compress1511 [0x12, 0x34, 0x56]) = some (.ok (.stream
    ⟨[.literal (bits "00011010001"), .literal (bits "11010110000")], [bits "10010", bits "00110"], true⟩)) := by
  decide
/-- V13: a forward reference to a literal. -/
theorem test_decompress74 : answer (.decompress74
    ⟨[.reference 1, .literal (bits "1011")], [bits "0000", bits "0101"], false⟩) =
    some (.ok (.bytes [0xB4, 0xB1])) := by decide
/-- V13: a reference to a reference. -/
theorem test_decompress74_chain : answer (.decompress74
    ⟨[.literal (bits "1011"), .reference 0, .reference 1], [bits "0000", bits "0000", bits "0000"], false⟩) =
    some (.fault 6) := by decide
/-- V12.3: the pad byte is dropped. -/
theorem test_decompress1511 : answer (.decompress1511
    ⟨[.literal (bits "00011010001"), .literal (bits "11010110000")], [bits "10010", bits "00110"], true⟩) =
    some (.ok (.bytes [0x12, 0x34, 0x56])) := by decide
/-- V13: pad = 1 with no entry. -/
theorem test_decompress1511_pad : answer (.decompress1511 ⟨[], [], true⟩) = some (.fault 6) := by decide

/-- R100: under the Trailing policy the data bits are the last four. -/
theorem test_trailing_policy : decodeBlock trailingTables (some .sevenFour) (bits "1100010") =
    .ok (bits "0010", bits "000") := by decide

/-- R6: an operand at a capacity runs, one past it is refused. -/
theorem test_capacity_boundary :
    refusal (.mvm matrixA (bits "1101")) boundedState = none ∧
    refusal (.mvm matrixA (bits "11010")) boundedState = some (.overCapacity .maxVecLen) ∧
    refusal (.compress74 [1, 2]) boundedState = none ∧
    refusal (.compress74 [1, 2, 3]) boundedState = some (.overCapacity .maxStreamBytes) := by decide

/-! ### The channel -/

/-- V1 and V9: STATUS is 0x10 after a result, and 0x15 after an illegal word and after a non-bit scalar. -/
theorem test_status_after :
    statusAfter ⟨0x00, [.scalar 1, .scalar 1]⟩ = some 0x10 ∧ statusAfter ⟨0x4C, [.bits (bits "1011")]⟩ = some 0x15 ∧
    statusAfter ⟨0x00, [.scalar 2, .scalar 1]⟩ = some 0x15 := by decide

/-- E3: a reset of an engine whose table fails V2 is refused. -/
theorem test_broken_table : columnsOk .sevenFour brokenSevenFour = false := by decide

/-- A table word runs as the first instruction after reset. -/
theorem test_withFetchWord :
    (match step (State.reset.withFetchWord 8 0x54) with | .next t => t.lastResponse | _ => none) =
      some (.ok (.pair (bits "0000") (bits "000"))) := by decide

/-! ### The assembler and programs -/

/-- R69, R70: the examples of R69. -/
theorem test_assemble_examples :
    assembleLine defaultTables "ENCODE.74 \"1011\"" = some ⟨0x44, [.value (.bits (bits "1011"))]⟩ ∧
    assembleLine defaultTables "DECODE \"1011010\"" = some ⟨0x50, [.value (.bits (bits "1011010"))]⟩ ∧
    assembleLine defaultTables "COMPRESS.74 x\"41 4B\"" = some ⟨0x74, [.value (.bytes [0x41, 0x4B])]⟩ ∧
    assembleLine defaultTables "XORV \"1\", \"1\"" = none := by decide

/-- The model's choices of notes/assumptions/17.md: separators inside a byte literal, and a pseudo-instruction with wrong
operands. -/
theorem test_assemble_choices :
    assembleLine defaultTables "COMPRESS.74 x\" 41  4B4C\"" = some ⟨0x74, [.value (.bytes [0x41, 0x4B, 0x4C])]⟩ ∧
    assembleLine defaultTables "COMPRESS.74 x\"4 1\"" = none ∧
    assembleLine defaultTables "FLIP.74 \"1011010\"" = none ∧
    assembleLine defaultTables "FLIP.74 \"1011010\", %0" = none ∧
    assembleLine defaultTables "ENCODE.74" = some ⟨0x44, []⟩ := by decide

/-- P1: FLIP's expansion, and references to a result and to a component. -/
theorem test_assemble_program :
    assemble defaultTables ["FLIP.74 %0, 2", "ENCODE.74 %2.base", "CORRECT.74 %3, %2.syn"] =
      some [⟨0x64, [.result 0, .value (.bits (bits "110"))]⟩, ⟨0x44, [.base 2]⟩, ⟨0x64, [.result 3, .syn 2]⟩] := by
  decide

/-- P1: the program of five commands is accepted and ends with the replayed word. -/
theorem test_program_replay :
    (runProgram [⟨0x44, [.value (.bits (bits "1011"))]⟩, ⟨0x64, [.result 0, .value (.bits (bits "110"))]⟩,
      ⟨0x54, [.result 1]⟩, ⟨0x44, [.base 2]⟩, ⟨0x64, [.result 3, .syn 2]⟩] State.reset).map Prod.snd =
    some (.finished [.bits (bits "1011010"), .bits (bits "1001010"), .pair (bits "1011") (bits "110"),
      .bits (bits "1011010"), .bits (bits "1001010")]) := by decide

/-- P5: the run stops at the first fault. R72: a reference to the current command is refused. -/
theorem test_program_stops :
    (runProgram [⟨0x44, [.value (.bits (bits "1011"))]⟩, ⟨0x44, [.value (.bits (bits "10110"))]⟩,
      ⟨0x54, [.result 0]⟩] State.reset).map Prod.snd = some (.faulted 1 2) ∧
    programAdmitted [⟨0x44, [.result 0]⟩] = false := by decide

/-! ### Hypotheses that can be met -/

theorem default_table (f : Family) : tableValid f (State.reset.tables.of f) = true :=
  tablesValid_of defaultTables_valid f

theorem trailing_valid : tableValid .sevenFour (trailingState.tables.of .sevenFour) = true := by decide +kernel

theorem broken_invalid : tablesValid brokenTables = false := by decide +kernel

/-- The request that the witnesses below put on the channel. -/
def addRequest : Request := ⟨0x00, [.scalar 1, .scalar 0]⟩

theorem witness_ReservedBitsAreIllegal :
    (State.reset.issue ⟨0x01, [.scalar 1, .scalar 0]⟩).inbox = .request ⟨0x01, [.scalar 1, .scalar 0]⟩ :: [] ∧
    (0x01 : Byte).extractLsb' 0 2 ≠ 0 := by decide

theorem witness_IllFormedRequestRaisesIllegalCommand :
    (State.reset.issue ⟨0x00, [.bits []]⟩).inbox = .request ⟨0x00, [.bits []]⟩ :: [] ∧
    Request.wellFormed ⟨0x00, [.bits []]⟩ = false := by decide

theorem witness_StepRunsTheDecodedInstruction :
    (State.reset.issue addRequest).inbox = .request addRequest :: [] ∧
    decode addRequest = .ok (.add true false) := by decide

theorem witness_StatusPortReadsAndIgnoresWrites :
    ({ State.reset with inbox := [.readStatus] } : State).inbox = .readStatus :: [] ∧
    ({ State.reset with inbox := [.writeStatus 0xFF] } : State).inbox = .writeStatus 0xFF :: [] ∧
    State.reset.inbox = [] := by decide

theorem witness_ResetLeavesStatusZeroAndNoTable : tablesValid defaultConfig.tables = true := defaultTables_valid

theorem witness_ResetChecksTheConfiguration :
    (({ State.reset with inbox := [.reset] } : State).inbox = .reset :: [] ∧
      tablesValid State.reset.tables = true) ∧
    (({ brokenState with inbox := [.reset] } : State).inbox = .reset :: [] ∧ tablesValid brokenState.tables = false) :=
  ⟨⟨rfl, defaultTables_valid⟩, rfl, broken_invalid⟩

/-- Each clause in an engine with all five bounds: one past its bound, with what is checked before it at its bound. -/
theorem witness_OperandsPastACapacityAreRefused :
    (boundedState.capacities.maxVecLen = some 4 ∧ 4 < (bits "11010").length) ∧
    (Fits boundedState [(.maxVecLen, (bits "1101").length)] ∧ boundedState.capacities.maxMatRows = some 3 ∧
      3 < (⟨4, 1, []⟩ : Matrix).r) ∧
    (Fits boundedState [(.maxVecLen, (bits "1101").length), (.maxMatRows, (⟨3, 5, []⟩ : Matrix).r)] ∧
      boundedState.capacities.maxMatCols = some 4 ∧ 4 < (⟨3, 5, []⟩ : Matrix).c) ∧
    ¬ Fits boundedState (linearLoad (bits "1101") ⟨3, 5, []⟩) ∧
    (boundedState.capacities.maxStreamBytes = some 2 ∧ 2 < ([1, 2, 3] : List Byte).length) ∧
    (boundedState.capacities.maxStreamEntries = some 1 ∧
      1 < ([.reference 0, .reference 0] : List BaseEntry).length) :=
  ⟨by decide, ⟨(exceeded_eq_none _ _).1 (by decide), by decide⟩, ⟨(exceeded_eq_none _ _).1 (by decide), by decide⟩,
    mt (exceeded_eq_none _ _).2 (by decide), by decide, by decide⟩

/-- A result, a fault, and a COMPRESS. -/
theorem witness_CommandsChangeOnlyStatusAndResponse :
    exec (.add true true) State.reset = .next (State.reset.returnOk (.bit false)) ∧
    exec (.encode74 []) State.reset = .next (State.reset.raise .invalidLength) ∧
    exec (.compress74 []) State.reset = .next (State.reset.returnOk (.stream ⟨[], [], false⟩)) :=
  ⟨rfl, rfl, rfl⟩

theorem witness_StepKeepsTheInvariant :
    EngineInv { trailingState with status := 0x13, tables := defaultTables, inbox := [.readStatus] } ∧
    step { trailingState with status := 0x13, tables := defaultTables, inbox := [.readStatus] } =
      .next { trailingState with status := 0x13, tables := defaultTables, outbox := [.status 0x13] } :=
  ⟨⟨defaultTables_valid, by decide, rfl⟩, rfl⟩

theorem witness_UncorrectableSyndromeIsNeverAnswered :
    EngineInv { State.reset with status := 0x10, outbox := [.response (.fault 2)], inbox := [.writeStatus 0] } ∧
    NeverUncorrectable { State.reset with
      status := 0x10, outbox := [.response (.fault 2)], inbox := [.writeStatus 0] } ∧
    step { State.reset with status := 0x10, outbox := [.response (.fault 2)], inbox := [.writeStatus 0] } =
      .next { State.reset with status := 0x10, outbox := [.response (.fault 2)] } :=
  ⟨⟨defaultTables_valid, by decide, rfl⟩, by intro d hd; simp at hd; subst hd; decide, rfl⟩

theorem witness_SameRequestGivesSameResponse :
    ({ State.reset with status := 0x16, dedup := some [] } : State).tables = State.reset.tables ∧
    ({ State.reset with status := 0x16, dedup := some [] } : State).capacities = State.reset.capacities ∧
    answerRequest addRequest State.reset = .next (State.reset.returnOk (.bit true)) :=
  ⟨rfl, rfl, rfl⟩

theorem witness_ResponsesComeInRequestOrder :
    ({ State.reset with inbox := [.request addRequest, .request ⟨0x01, []⟩] } : State).inbox =
      [addRequest, ⟨0x01, []⟩].map .request ∧
    Sys2Proof.core.run 2 ({ State.reset with inbox := [.request addRequest, .request ⟨0x01, []⟩] } : State) =
      .next ((State.reset.returnOk (.bit true)).raise .illegalCommand) :=
  ⟨rfl, rfl⟩

theorem witness_VmmAnswersColumnSums :
    matrixA.rows.length = matrixA.r ∧ (∀ row ∈ matrixA.rows, row.length = matrixA.c) ∧
    (bits "101").length = matrixA.r ∧ Fits State.reset (linearLoad (bits "101") matrixA) :=
  ⟨rfl, by decide, rfl, fits_unbounded rfl _⟩

theorem witness_MvmAnswersRowSums :
    matrixA.rows.length = matrixA.r ∧ (∀ row ∈ matrixA.rows, row.length = matrixA.c) ∧
    (bits "1101").length = matrixA.c ∧ Fits State.reset (linearLoad (bits "1101") matrixA) :=
  ⟨rfl, by decide, rfl, fits_unbounded rfl _⟩

/-- A miscounted matrix, a ragged one, and a vector one bit short or long. -/
theorem witness_ShapeMismatchRaisesDimensionMismatch :
    Fits State.reset (linearLoad (bits "10") ⟨2, 1, [[true]]⟩) ∧ ([[true]] : List Bits).length ≠ 2 ∧
    (∃ row ∈ [bits "111", bits "11"], row.length ≠ 3) ∧ (bits "10").length ≠ matrixA.r ∧
    (bits "11010").length ≠ matrixA.c :=
  ⟨fits_unbounded rfl _, by decide, by decide, by decide, by decide⟩

theorem witness_GfLawsAndLinearity :
    (bits "101").length = (bits "011").length ∧ vmm (bits "101") matrixA = .ok (bits "0101") ∧
    vmm (bits "011") matrixA = .ok (bits "1001") ∧ mvm matrixA (bits "1101") = .ok (bits "111") ∧
    mvm matrixA (bits "1000") = .ok (bits "101") := by decide

theorem witness_AutoSelectsByLength :
    (bits "1011").length = messageLen .sevenFour ∧ (zeros 11).length = messageLen .fifteenEleven ∧
    (bits "1011010").length = blockLen .sevenFour ∧ (zeros 15).length = blockLen .fifteenEleven := by decide

/-- Lengths one below and one above each legal one, and between the two families'. -/
theorem witness_WrongLengthsRaise :
    (bits "101").length ≠ messageLen .sevenFour ∧ (bits "10110").length ≠ messageLen .sevenFour ∧
    (bits "1011").length ≠ blockLen .sevenFour ∧ (zeros 14).length ≠ blockLen .fifteenEleven ∧
    ((zeros 7).length = blockLen .sevenFour ∧ (zeros 4).length ≠ syndromeLen .sevenFour) ∧
    ((zeros 7).length ≠ 4 ∧ (zeros 7).length ≠ 11) ∧ ((zeros 11).length ≠ 7 ∧ (zeros 11).length ≠ 15) := by decide

theorem witness_EncodeAnswersTheCodeword :
    tableValid .fifteenEleven (State.reset.tables.of .fifteenEleven) = true ∧
    (bits "10110011100").length = messageLen .fifteenEleven := ⟨default_table _, rfl⟩

theorem witness_DecodeAnswersBaseAndSyndrome :
    tableValid .sevenFour (trailingState.tables.of .sevenFour) = true ∧
    (bits "1011011").length = blockLen .sevenFour := ⟨trailing_valid, rfl⟩

theorem witness_DecodeInvertsEncode :
    tableValid .sevenFour (trailingState.tables.of .sevenFour) = true ∧
    (bits "1011").length = messageLen .sevenFour := ⟨trailing_valid, rfl⟩

/-- The last position. -/
theorem witness_DecodeCorrectsAnySingleFlip :
    tableValid .fifteenEleven (State.reset.tables.of .fifteenEleven) = true ∧
    (bits "10110011100").length = messageLen .fifteenEleven ∧ 14 < blockLen .fifteenEleven :=
  ⟨default_table _, rfl, by decide⟩

theorem witness_CodewordsAreTheNullSpace :
    tableValid .sevenFour (State.reset.tables.of .sevenFour) = true ∧
    (bits "1011010").length = blockLen .sevenFour := ⟨default_table _, rfl⟩

/-- The zero syndrome and a non-zero one. -/
theorem witness_CorrectFlipsTheNamedBit :
    tableValid .sevenFour (State.reset.tables.of .sevenFour) = true ∧ (bits "1011010").length = blockLen .sevenFour ∧
    (bits "000").length = syndromeLen .sevenFour ∧ bits "000" = zeros (syndromeLen .sevenFour) ∧
    (bits "101").length = syndromeLen .sevenFour ∧ bits "101" ≠ zeros (syndromeLen .sevenFour) :=
  ⟨default_table _, rfl, rfl, rfl, rfl, by decide⟩

theorem witness_CorrectTwiceRestores :
    tableValid .fifteenEleven (State.reset.tables.of .fifteenEleven) = true ∧
    (zeros 15).length = blockLen .fifteenEleven ∧ (bits "1111").length = syndromeLen .fifteenEleven :=
  ⟨default_table _, rfl, rfl⟩

theorem unmatched_broken : Unmatched brokenState .sevenFour (bits "101") := by
  constructor <;> decide

/-- The word has bits 4 and 6, the columns `100` and `001`. -/
theorem witness_UnmatchedSyndromeRaises :
    (bits "0000101").length = blockLen .sevenFour ∧ Unmatched brokenState .sevenFour (bits "101") ∧
    (bits "101").length = syndromeLen .sevenFour ∧
    mvm (brokenState.tables.of .sevenFour).H (bits "0000101") = .ok (bits "101") :=
  ⟨rfl, unmatched_broken, rfl, by decide⟩

theorem witness_GddInversion :
    tableValid .sevenFour (trailingState.tables.of .sevenFour) = true ∧
    (bits "0111010").length = blockLen .sevenFour := ⟨trailing_valid, rfl⟩

/-- The first and last positions, and the first that FLIP refuses. -/
theorem witness_PseudoInstructionsDoWhatTheyName :
    tableValid .sevenFour (State.reset.tables.of .sevenFour) = true ∧ (bits "1011010").length = blockLen .sevenFour ∧
    Fits State.reset (linearLoad (bits "1011010") (State.reset.tables.of .sevenFour).H) ∧
    0 < blockLen .sevenFour ∧ 6 < blockLen .sevenFour ∧ blockLen .sevenFour ≤ 7 :=
  ⟨default_table _, rfl, fits_unbounded rfl _, by decide, by decide, by decide⟩

theorem witness_ByteCodecIsExact : (bits "10110100").length = 8 := by decide

theorem witness_ChunksAreWindowsAndCarries :
    ([0x12, 0x34] : List Byte)[1]? = some 0x34 ∧ ([0x12, 0x34] : List Byte)[2 * 0]? = some 0x12 ∧
    ([0x12, 0x34] : List Byte)[2 * 0 + 1]? = some 0x34 := by decide

theorem witness_PaddingIsOneZeroByte :
    ([0x12] : List Byte).length % 2 = 1 ∧ ([] : List Byte).length % 2 = 0 := by decide

theorem witness_ChunkBytesInvertChunking :
    ([0x12, 0x34] : List Byte).length % chunkBytes .fifteenEleven = 0 ∧
    ([0x12] : List Byte).length % chunkBytes .sevenFour = 0 := by decide

theorem witness_CompressAnswersOneEntryPerChunk :
    tableValid .fifteenEleven (State.reset.tables.of .fifteenEleven) = true ∧
    Fits State.reset (bytesLoad [0x12]) := ⟨default_table _, fits_unbounded rfl _⟩

theorem witness_CompressDeduplicatesBases :
    tableValid .sevenFour (State.reset.tables.of .sevenFour) = true ∧
    Fits State.reset (bytesLoad [0x41, 0x42, 0x41]) := ⟨default_table _, fits_unbounded rfl _⟩

theorem witness_DedupTableIsBounded :
    (∀ x ∈ [(bits "1011010", true)], x.1.length = blockLen .sevenFour) ∧
    (compressLoop .sevenFour [(bits "1011010", true)] ⟨[], []⟩ State.reset.openDedup).2.dedup =
      some [(bits "1011", 0)] := by decide

/-- V13's forward reference. -/
def forwardStream : CompressedStream := ⟨[.reference 1, .literal (bits "1011")], [bits "0000", bits "0101"], false⟩

theorem forwardStream_entries : ∀ i, i < 2 → EntryOk .sevenFour forwardStream i := by
  intro i hi
  rcases i with _ | _ | i
  · exact ⟨_, _, bits "1011", rfl, rfl, rfl, rfl, rfl⟩
  · exact ⟨_, _, bits "1011", rfl, rfl, rfl, rfl, rfl⟩
  · omega

theorem witness_DecompressRebuildsEveryEntry :
    tableValid .sevenFour (State.reset.tables.of .sevenFour) = true ∧ StreamOk .sevenFour forwardStream ∧
    Fits State.reset (streamLoad forwardStream) ∧
    Fits State.reset [(.maxStreamBytes, chunkBytes .sevenFour * 2 - forwardStream.pad.toNat)] :=
  ⟨default_table _, ⟨⟨rfl, by decide⟩, forwardStream_entries⟩, fits_unbounded rfl _, fits_unbounded rfl _⟩

/-- A bad header; then, after a good first entry, a self-reference, a wide literal and a narrow deviation. -/
theorem witness_DecompressReportsTheFirstFailingCheck :
    Fits State.reset (streamLoad ⟨[.literal (bits "0000")], [], false⟩) ∧
    ¬ HeaderOk .sevenFour ⟨[.literal (bits "0000")], [], false⟩ ∧
    ¬ HeaderOk .fifteenEleven ⟨[], [], true⟩ ∧
    (HeaderOk .sevenFour ⟨[.literal (bits "1011"), .reference 1], [bits "0000", bits "0000"], false⟩ ∧
      EntryOk .sevenFour ⟨[.literal (bits "1011"), .reference 1], [bits "0000", bits "0000"], false⟩ 0 ∧
      ∀ lit, ¬ StandsFor [.literal (bits "1011"), .reference 1] (.reference 1) lit) ∧
    (HeaderOk .sevenFour ⟨[.literal (bits "10110")], [bits "0000"], false⟩ ∧
      StandsFor [.literal (bits "10110")] (.literal (bits "10110")) (bits "10110") ∧
      (bits "10110").length ≠ messageLen .sevenFour) ∧
    (HeaderOk .sevenFour ⟨[.literal (bits "1011")], [bits "000"], false⟩ ∧
      (bits "1011").length = messageLen .sevenFour ∧ (bits "000").length ≠ deviationLen .sevenFour) := by
  refine ⟨fits_unbounded rfl _, by simp [HeaderOk], by simp [HeaderOk], ⟨⟨rfl, by decide⟩, ?_, ?_⟩,
    ⟨⟨rfl, by decide⟩, rfl, by decide⟩, ⟨rfl, by decide⟩, rfl, by decide⟩
  · exact ⟨_, _, bits "1011", rfl, rfl, rfl, rfl, rfl⟩
  · intro lit h; simp [StandsFor] at h

/-- The odd length of one byte. -/
theorem witness_CompressThenDecompressRestores :
    tableValid .fifteenEleven (State.reset.tables.of .fifteenEleven) = true ∧
    Fits State.reset (bytesLoad [0x12]) ∧
    Fits State.reset [(.maxStreamEntries, chunkCount .fifteenEleven [0x12])] :=
  ⟨default_table _, fits_unbounded rfl _, fits_unbounded rfl _⟩

theorem witness_BasesAreHammingSpheres :
    tableValid .sevenFour (trailingTables.of .sevenFour) = true ∧ (bits "1011010").length = blockLen .sevenFour ∧
    (bits "0011010").length = blockLen .sevenFour ∧ (bits "1011").length = messageLen .sevenFour :=
  ⟨trailing_valid, rfl, rfl, rfl⟩

/-- One byte of room and two entries. -/
theorem witness_DecompressOutputsPastACapacityAreRefused :
    tableValid .sevenFour (State.reset.tables.of .sevenFour) = true ∧ StreamOk .sevenFour forwardStream ∧
    Fits { State.reset with capacities := ⟨none, none, none, some 1, some 2⟩ } (streamLoad forwardStream) ∧
    1 < chunkBytes .sevenFour * forwardStream.bases.length - forwardStream.pad.toNat :=
  ⟨default_table _, ⟨⟨rfl, by decide⟩, forwardStream_entries⟩, (exceeded_eq_none _ _).1 (by decide), by decide⟩

/-- The second entry replays the syndrome `101`. -/
def unmatchedStream : CompressedStream := ⟨[.literal (bits "1011"), .reference 0], [bits "0000", bits "1010"], false⟩

theorem unmatchedStream_entries : ∀ i, i < 2 → EntryOk .sevenFour unmatchedStream i := by
  intro i hi
  rcases i with _ | _ | i
  · exact ⟨_, _, bits "1011", rfl, rfl, rfl, rfl, rfl⟩
  · exact ⟨_, _, bits "1011", rfl, rfl, rfl, rfl, rfl⟩
  · omega

/-- COMPRESS: the second byte's window is `0000101`, and the first decodes. DECOMPRESS: the first entry rebuilds. -/
theorem witness_UnmatchedSyndromeEndsThePipeline :
    (Fits brokenState (bytesLoad [0x00, 0x0A]) ∧
      (chunks .sevenFour (padInput .sevenFour [0x00, 0x0A]).1)[1]? = some (bits "0000101", false) ∧
      mvm (brokenState.tables.of .sevenFour).H (bits "0000101") = .ok (bits "101") ∧
      Unmatched brokenState .sevenFour (bits "101") ∧
      (chunks .sevenFour (padInput .sevenFour [0x00, 0x0A]).1)[0]? = some (zeros 7, false) ∧
      exec (decodeOf .sevenFour (zeros 7)) brokenState = .next (brokenState.afterOk (.pair (zeros 4) (zeros 3)))) ∧
    (Fits brokenState (streamLoad unmatchedStream) ∧ StreamOk .sevenFour unmatchedStream ∧
      unmatchedStream.bases[1]? = some (.reference 0) ∧ unmatchedStream.deviations[1]? = some (bits "1010") ∧
      StandsFor unmatchedStream.bases (.reference 0) (bits "1011") ∧
      vmm (bits "1011") (brokenState.tables.of .sevenFour).G = .ok (bits "1011010") ∧
      (bits "1010").take (syndromeLen .sevenFour) = bits "101" ∧
      rebuildEntry brokenState.tables .sevenFour (bits "1011") (bits "0000") = .ok (bits "10110100")) :=
  ⟨⟨fits_unbounded rfl _, by decide, by decide, unmatched_broken, by decide, rfl⟩,
    fits_unbounded rfl _, ⟨⟨rfl, by decide⟩, unmatchedStream_entries⟩, rfl, rfl, rfl, by decide, rfl, by decide⟩

theorem witness_RunsFinishOrStopAtTheFirstFault :
    runProgram [⟨0x00, [.value (.scalar 1), .value (.scalar 0)]⟩] State.reset =
      some (State.reset.returnOk (.bit true), .finished [.bit true]) ∧
    runProgram [⟨0x4C, []⟩, ⟨0x00, []⟩] State.reset =
      some (State.reset.raise .illegalCommand, .faulted 0 5) := by decide

theorem witness_AdmittedProgramsRun :
    programAdmitted [⟨0x54, [.value (.bits (bits "1011010"))]⟩, ⟨0x44, [.base 0]⟩, ⟨0x30, [.value (.matrix matrixA),
      .result 1]⟩] = true ∧ State.reset.capacities = .unbounded := by decide

end Sys2Proof.Tests
end

section
/-! Scope (spec/00_scope.md R6): what a capacity parameter refuses. First the capacity check on its own and the commands
that make it; then reconstruction over a valid table, which DECOMPRESS needs before its output can be measured. -/

namespace Sys2Proof.Machine

/-! ### Which capacity a load exceeds -/

/-- The check names the first amount past its bound, whatever follows it. -/
theorem exceeded_of_first_past {s : State} {before : Load} {c : Capacity} {n bound : Nat} (hfit : Fits s before)
    (hb : s.capacities.limit c = some bound) (hn : bound < n) (after : Load) :
    exceeded s.capacities (before ++ (c, n) :: after) = some c := by
  rw [exceeded_append_of_fits hfit, exceeded_cons_of_past hb hn]

/-- One amount within its bound. -/
theorem fits_singleton {s : State} {c : Capacity} {n bound : Nat} (hb : s.capacities.limit c = some bound)
    (hn : n ≤ bound) : Fits s [(c, n)] := by
  intro c' n' hm b hb'
  obtain ⟨rfl, rfl⟩ : c' = c ∧ n' = n := by simpa using hm
  obtain rfl : bound = b := Option.some.inj (hb.symm.trans hb')
  exact hn

theorem exists_exceeded_of_not_fits {s : State} {load : Load} (h : ¬ Fits s load) :
    ∃ c, exceeded s.capacities load = some c :=
  Option.ne_none_iff_exists'.1 (mt (exceeded_eq_none s load).1 h)

/-- A stream operand with too many entries, in either sequence, exceeds MaxStreamEntries before its output is looked
at. -/
theorem exceeded_streamLoad {s : State} {cs : CompressedStream} {bound : Nat}
    (hb : s.capacities.maxStreamEntries = some bound)
    (hn : bound < cs.bases.length ∨ bound < cs.deviations.length) (output : Load) :
    exceeded s.capacities (streamLoad cs ++ output) = some .maxStreamEntries := by
  by_cases hbases : bound < cs.bases.length
  · exact exceeded_cons_of_past (c := .maxStreamEntries) hb hbases _
  · have hfit : Fits s [(.maxStreamEntries, cs.bases.length)] := fits_singleton hb (Nat.le_of_not_lt hbases)
    exact exceeded_of_first_past (c := .maxStreamEntries) hfit hb (hn.resolve_left hbases) output

/-! ### The commands that check capacities -/

/-- VMM and MVM make the same check, so they refuse alike. -/
theorem exec_linear_refused {s : State} {v : Bits} {m : Matrix} {c : Capacity}
    (h : exceeded s.capacities (linearLoad v m) = some c) :
    exec (.vmm v m) s = .refused (.overCapacity c) ∧ exec (.mvm m v) s = .refused (.overCapacity c) :=
  ⟨within_of_exceeded h _, within_of_exceeded h _⟩

/-- COMPRESS of a family is its loop behind the check of its input (R138). -/
theorem exec_compressOf (f : Family) (data : List Byte) (s : State) :
    exec (compressOf f data) s = s.within (bytesLoad data) (.next (compress f data s)) := by
  cases f <;> rfl

/-- DECOMPRESS of a family is its answer behind the check of its operand and its output (R139). -/
theorem exec_decompressOf (f : Family) (cs : CompressedStream) (s : State) :
    exec (decompressOf f cs) s =
      s.within (streamLoad cs ++ outputLoad (decompress s.tables f cs))
        (.next (s.finish ((decompress s.tables f cs).map .bytes))) := by
  cases f <;> rfl

/-- Settles O11: each clause names the first amount past its bound. -/
theorem operandsPastACapacityAreRefused : Obligations.OperandsPastACapacityAreRefused := by
  intro s bound
  refine ⟨?vectorLength, ?matrixRows, ?matrixColumns, ?anyBound, ?compressInput, ?decompressOperand⟩
  case vectorLength =>
    intro v m hb hn
    exact exec_linear_refused (exceeded_cons_of_past (c := .maxVecLen) hb hn _)
  case matrixRows =>
    intro v m hfit hb hn
    exact exec_linear_refused (exceeded_of_first_past (c := .maxMatRows) hfit hb hn _)
  case matrixColumns =>
    intro v m hfit hb hn
    exact exec_linear_refused (exceeded_of_first_past (c := .maxMatCols) hfit hb hn [])
  case anyBound =>
    intro v m hfit
    obtain ⟨c, hc⟩ := exists_exceeded_of_not_fits hfit
    exact ⟨c, exec_linear_refused hc⟩
  case compressInput =>
    intro f data hb hn
    rw [exec_compressOf]
    exact within_of_exceeded (exceeded_cons_of_past (c := .maxStreamBytes) hb hn []) _
  case decompressOperand =>
    intro f cs hb hn
    rw [exec_decompressOf]
    exact within_of_exceeded (exceeded_streamLoad hb hn _) _

/-! ### Syndromes over a valid table -/

/-- V2 of R105 as propositions. -/
theorem columnsOk_iff (f : Family) (t : CodeTable) :
    columnsOk f t = true ↔ (columns t.H).Nodup ∧ zeros (syndromeLen f) ∉ columns t.H := by
  simp only [columnsOk, Bool.and_eq_true, decide_eq_true_eq, List.all_eq_true, bne_iff_ne, and_congr_right_iff]
  exact fun _ => ⟨fun h hz => h _ hz rfl, fun h x hx hxz => h (hxz ▸ hx)⟩

/-- The columns of a valid H are all the non-zero syndromes (R107): with zero they are `n + 1 = 2^m` distinct vectors of
`m` bits. -/
theorem mem_columns_of_tableValid {f : Family} {t : CodeTable} (h : tableValid f t = true) {e : Bits}
    (he : e.length = syndromeLen f) (hne : e ≠ zeros (syndromeLen f)) : e ∈ columns t.H := by
  obtain ⟨hshapes, hcolumns, -⟩ := (tableValid_iff f t).1 h
  obtain ⟨-, -, -, -, -, hH, hr, hc⟩ := (shapesOk_iff f t).1 hshapes
  obtain ⟨hnodup, hzero⟩ := (columnsOk_iff f t).1 hcolumns
  have hrows : t.H.rows.length = syndromeLen f := ((matrixOk_iff t.H).1 hH).1.trans hr
  have hsub : zeros (syndromeLen f) :: columns t.H ⊆ allBits (syndromeLen f) := by
    intro v hv
    rw [mem_allBits]
    rcases List.mem_cons.1 hv with rfl | hv
    · exact length_zeros _
    · obtain ⟨j, -, rfl⟩ := List.mem_map.1 hv
      rw [length_col, hrows]
  have hperm : (zeros (syndromeLen f) :: columns t.H).Perm (allBits (syndromeLen f)) := by
    refine ((List.nodup_cons.2 ⟨hzero, hnodup⟩).subperm hsub).perm_of_length_le ?_
    simp [hc, two_pow_syndromeLen]
  have hmem : e ∈ zeros (syndromeLen f) :: columns t.H := hperm.mem_iff.2 ((mem_allBits _ e).2 he)
  exact (List.mem_cons.1 hmem).resolve_left hne

/-- Over a valid table every m-bit syndrome resolves (R107). -/
theorem exists_correctCore_ok {tables : CodeTables} {f : Family} (h : tableValid f (tables.of f) = true) (w : Bits)
    {e : Bits} (he : e.length = syndromeLen f) : ∃ c, correctCore tables f w e = .ok c := by
  by_cases hz : e = zeros (syndromeLen f)
  · exact ⟨w, by rw [hz, correctCore_zero]⟩
  · obtain ⟨hshapes, -⟩ := (tableValid_iff f _).1 h
    obtain ⟨-, -, -, -, -, -, -, hc⟩ := (shapesOk_iff f _).1 hshapes
    obtain ⟨j, hj, hcol⟩ := List.mem_map.1 (mem_columns_of_tableValid h he hz)
    have hfound : (errorPosition tables f e).isSome = true := by
      rw [errorPosition, List.find?_isSome]
      exact ⟨j, hc ▸ hj, beq_iff_eq.2 hcol⟩
    obtain ⟨i, hi⟩ := Option.isSome_iff_exists.1 hfound
    exact ⟨flipBit w i, by rw [correctCore, if_neg hz, hi]⟩

/-! ### Reconstruction over a valid table -/

/-- Over a valid table a k-bit literal encodes (R110). -/
theorem exists_encodeBlock_ok {tables : CodeTables} {f : Family} (h : tableValid f (tables.of f) = true) {u : Bits}
    (hu : u.length = messageLen f) : ∃ c, encodeBlock tables (some f) u = .ok c := by
  obtain ⟨hshapes, -⟩ := (tableValid_iff f _).1 h
  obtain ⟨-, -, hG, hr, -⟩ := (shapesOk_iff f _).1 hshapes
  exact ⟨_, (encodeBlock_explicit hu).trans ((vmm_eq_ok_iff _ _ _).2 ⟨hG, hu.trans hr.symm, rfl⟩)⟩

/-- Over a valid table an entry whose literal and deviation have the right widths rebuilds (R137). -/
theorem exists_rebuildEntry_ok {tables : CodeTables} {f : Family} (h : tableValid f (tables.of f) = true)
    {lit dev : Bits} (hlit : lit.length = messageLen f) (hdev : dev.length = deviationLen f) :
    ∃ y, rebuildEntry tables f lit dev = .ok y := by
  obtain ⟨c, hc⟩ := exists_encodeBlock_ok h hlit
  have hslice : (slice dev 0 (syndromeLen f)).length = syndromeLen f := by
    simp [slice, hdev, deviationLen]
  obtain ⟨y, hy⟩ := exists_correctCore_ok h c hslice
  exact ⟨_, by rw [rebuildEntry, hc]; simp only [bind, Except.bind, hy]; rfl⟩

@[simp] theorem length_bytesOfChunk (f : Family) (y : Bits) : (bytesOfChunk f y).length = chunkBytes f := by
  cases f <;> rfl

/-- Over a valid table good entries rebuild to one chunk of bytes each (R139). -/
theorem exists_rebuildEntries_ok {tables : CodeTables} {f : Family} (h : tableValid f (tables.of f) = true)
    {lits devs : List Bits} (hlen : lits.length = devs.length) (hlits : ∀ lit ∈ lits, lit.length = messageLen f)
    (hdevs : ∀ dev ∈ devs, dev.length = deviationLen f) :
    ∃ out, rebuildEntries tables f lits devs = .ok out ∧ out.length = chunkBytes f * lits.length := by
  induction lits generalizing devs with
  | nil => exact ⟨[], by simp [rebuildEntries], rfl⟩
  | cons lit lits ih =>
    cases devs with
    | nil => simp at hlen
    | cons dev devs =>
      obtain ⟨hlit, hlits⟩ := List.forall_mem_cons.1 hlits
      obtain ⟨hdev, hdevs⟩ := List.forall_mem_cons.1 hdevs
      obtain ⟨y, hy⟩ := exists_rebuildEntry_ok h hlit hdev
      obtain ⟨rest, hrest, hrestLen⟩ := ih (Nat.succ.inj hlen) hlits hdevs
      refine ⟨bytesOfChunk f y ++ rest, by rw [rebuildEntries_cons hy, hrest]; rfl, ?_⟩
      rw [List.length_append, length_bytesOfChunk, hrestLen, List.length_cons, Nat.mul_succ, Nat.add_comm]

/-! ### Streams that pass validation -/

theorem length_bases_eq_deviations {f : Family} {cs : CompressedStream} (h : StreamOk f cs) :
    cs.bases.length = cs.deviations.length := by
  obtain ⟨⟨hlen, -⟩, -⟩ := h
  exact hlen

theorem length_of_mem_deviations {f : Family} {cs : CompressedStream} (h : StreamOk f cs) {dev : Bits}
    (hd : dev ∈ cs.deviations) : dev.length = deviationLen f := by
  obtain ⟨⟨hlen, -⟩, hentries⟩ := h
  obtain ⟨i, hi, rfl⟩ := List.mem_iff_getElem.1 hd
  obtain ⟨-, dev', -, -, hdev', -, -, hwidth⟩ := hentries i (hlen ▸ hi)
  obtain rfl := Option.some.inj ((List.getElem?_eq_getElem hi).symm.trans hdev')
  exact hwidth

/-- The literals that validation answers, one per entry, each of k bits (R136). -/
theorem exists_validateStream_ok {f : Family} {cs : CompressedStream} (h : StreamOk f cs) :
    ∃ lits, validateStream f cs = .ok lits ∧ lits.length = cs.bases.length ∧
      ∀ lit ∈ lits, lit.length = messageLen f := by
  obtain ⟨lits, hv, hlen, hall⟩ := validateStream_ok h
  refine ⟨lits, hv, hlen, fun lit hm => ?_⟩
  obtain ⟨i, hi, rfl⟩ := List.mem_iff_getElem.1 hm
  exact (hall i _ _ (List.getElem?_eq_getElem (hlen ▸ hi)) (List.getElem?_eq_getElem hi)).2

/-- Over a valid table a stream that passes validation decompresses, to one chunk of bytes per entry less the padding
byte (R139). -/
theorem exists_decompress_ok {tables : CodeTables} {f : Family} {cs : CompressedStream}
    (h : tableValid f (tables.of f) = true) (hcs : StreamOk f cs) :
    ∃ out, decompress tables f cs = .ok out ∧ out.length = chunkBytes f * cs.bases.length - cs.pad.toNat := by
  obtain ⟨lits, hv, hlen, hlits⟩ := exists_validateStream_ok hcs
  have hlens : lits.length = cs.deviations.length := hlen.trans (length_bases_eq_deviations hcs)
  obtain ⟨out, hout, houtLen⟩ := exists_rebuildEntries_ok h hlens hlits fun _ hd => length_of_mem_deviations hcs hd
  refine ⟨if cs.pad then out.dropLast else out, ?_, ?_⟩
  · rw [decompress, hv]
    simp only [bind, Except.bind, hout]
    rfl
  · rw [← hlen, ← houtLen]
    cases cs.pad
    · rfl
    · exact List.length_dropLast

/-- Settles O51: the stream decompresses, so its output is measured once its entries fit. -/
theorem decompressOutputsPastACapacityAreRefused : Obligations.DecompressOutputsPastACapacityAreRefused := by
  intro f s cs bound htable hcs hfit hb hn
  obtain ⟨out, hout, hlen⟩ := exists_decompress_ok htable hcs
  rw [exec_decompressOf, hout]
  exact within_of_exceeded (exceeded_of_first_past (c := .maxStreamBytes) hfit hb (hlen ▸ hn) []) _

end Sys2Proof.Machine
end

section
/-! State (spec/10_state.md): what the engine keeps between commands. First every command as one completion of an answer
that the code tables fix; then the dedup table inside a COMPRESS; then steps, resets and runs of requests. -/

namespace Sys2Proof.Machine

/-! ### The compression loop as a function of the tables and the dedup table -/

theorem compressLoop_cons_error {f : Family} {w : Bits} {e : ErrorKind} {s : State}
    (h : decodeBlock s.tables (some f) w = .error e) (carry : Bit) (rest : List (Bits × Bit)) (out : Emitted) :
    compressLoop f ((w, carry) :: rest) out s = (.error e, s) := by
  simp only [compressLoop, h]

theorem compressLoop_cons_ok {f : Family} {w b syn : Bits} {s : State}
    (h : decodeBlock s.tables (some f) w = .ok (b, syn)) (carry : Bit) (rest : List (Bits × Bit)) (out : Emitted) :
    compressLoop f ((w, carry) :: rest) out s =
      compressLoop f rest (dedupStep b (syn ++ [carry]) out s).1 (dedupStep b (syn ++ [carry]) out s).2 := by
  simp only [compressLoop, h]

theorem dedupStep_tables (b dev : Bits) (out : Emitted) (s : State) : (dedupStep b dev out s).2.tables = s.tables := by
  rw [dedupStep_frame]

/-- The dedup step reads nothing of the state but the dedup table. -/
theorem dedupStep_congr (b dev : Bits) (out : Emitted) {s s' : State} (h : s'.dedup = s.dedup) :
    (dedupStep b dev out s').1 = (dedupStep b dev out s).1 ∧
    (dedupStep b dev out s').2.dedup = (dedupStep b dev out s).2.dedup := by
  have hlookup : s'.dedupLookup b = s.dedupLookup b := by rw [State.dedupLookup, h, State.dedupLookup]
  cases hj : s.dedupLookup b <;> simp [dedupStep, hlookup, hj, h]

/-- The loop's outcome is fixed by the code tables and the dedup table it starts with. -/
theorem compressLoop_outcome_congr (f : Family) (xs : List (Bits × Bit)) (out : Emitted) {s s' : State}
    (htables : s'.tables = s.tables) (hdedup : s'.dedup = s.dedup) :
    (compressLoop f xs out s').1 = (compressLoop f xs out s).1 := by
  induction xs generalizing out s s' with
  | nil => rfl
  | cons x rest ih =>
    obtain ⟨w, carry⟩ := x
    cases h : decodeBlock s.tables (some f) w with
    | error e => rw [compressLoop_cons_error h, compressLoop_cons_error (htables ▸ h)]
    | ok d =>
      obtain ⟨b, syn⟩ := d
      obtain ⟨hout, htable⟩ := dedupStep_congr b (syn ++ [carry]) out hdedup
      rw [compressLoop_cons_ok h, compressLoop_cons_ok (htables ▸ h), hout]
      exact ih _ (by rw [dedupStep_tables, dedupStep_tables, htables]) htable

/-- What COMPRESS answers over given tables (R138), whatever else the state holds. -/
def compressAnswer (tables : CodeTables) (f : Family) (data : List Byte) : Checked Result :=
  (compressLoop f (chunks f (padInput f data).1) ⟨[], []⟩ (State.initial ⟨tables, .unbounded⟩).openDedup).1.map
    fun out => .stream ⟨out.bases, out.deviations, (padInput f data).2⟩

theorem compress_eq_compressAnswer (f : Family) (data : List Byte) (s : State) :
    compress f data s = (s.finish (compressAnswer s.tables f data)).closeDedup := by
  have hframe := compressLoop_frame f (chunks f (padInput f data).1) ⟨[], []⟩ s.openDedup
  have houtcome := compressLoop_outcome_congr f (chunks f (padInput f data).1) ⟨[], []⟩
    (s := (State.initial ⟨s.tables, .unbounded⟩).openDedup) (s' := s.openDedup) rfl rfl
  unfold compress compressAnswer
  dsimp only
  rw [hframe, houtcome]
  generalize Except.map _ _ = answer
  cases answer <;> rfl

/-! ### Every command as one completion -/

/-- What a command answers over given code tables, when it is not refused (R29). -/
def instrAnswer (tables : CodeTables) : Instr → Checked Result
  | .add a b => .ok (.bit (gfAdd a b))
  | .mul a b => .ok (.bit (gfMul a b))
  | .vmm v m => (vmm v m).map .bits
  | .mvm m v => (mvm m v).map .bits
  | .encode u => (encodeBlock tables none u).map .bits
  | .encode74 u => (encodeBlock tables (some .sevenFour) u).map .bits
  | .encode1511 u => (encodeBlock tables (some .fifteenEleven) u).map .bits
  | .decode w => (decodeBlock tables none w).map fun out => .pair out.1 out.2
  | .decode74 w => (decodeBlock tables (some .sevenFour) w).map fun out => .pair out.1 out.2
  | .decode1511 w => (decodeBlock tables (some .fifteenEleven) w).map fun out => .pair out.1 out.2
  | .correct w e => (correctBlock tables none w e).map .bits
  | .correct74 w e => (correctBlock tables (some .sevenFour) w e).map .bits
  | .correct1511 w e => (correctBlock tables (some .fifteenEleven) w e).map .bits
  | .compress74 d => compressAnswer tables .sevenFour d
  | .compress1511 d => compressAnswer tables .fifteenEleven d
  | .decompress74 cs => (decompress tables .sevenFour cs).map .bytes
  | .decompress1511 cs => (decompress tables .fifteenEleven cs).map .bytes

/-- What a command measures against the capacities (R6). -/
def instrLoad (tables : CodeTables) : Instr → Load
  | .vmm v m | .mvm m v => linearLoad v m
  | .compress74 d | .compress1511 d => bytesLoad d
  | .decompress74 cs => streamLoad cs ++ outputLoad (decompress tables .sevenFour cs)
  | .decompress1511 cs => streamLoad cs ++ outputLoad (decompress tables .fifteenEleven cs)
  | _ => []

/-- `s` after a command that is not refused: its answer is given, and a COMPRESS has discarded its table (R24, R26). -/
def State.complete (s : State) (i : Instr) : State :=
  if isCompress i then (s.finish (instrAnswer s.tables i)).closeDedup else s.finish (instrAnswer s.tables i)

/-- Each of the 17 commands is the check of its load and then one completion. -/
theorem exec_eq_within (i : Instr) (s : State) :
    exec i s = s.within (instrLoad s.tables i) (.next (s.complete i)) := by
  cases i with
  | compress74 d =>
    exact congrArg (fun t => s.within (bytesLoad d) (.next t)) (compress_eq_compressAnswer .sevenFour d s)
  | compress1511 d =>
    exact congrArg (fun t => s.within (bytesLoad d) (.next t)) (compress_eq_compressAnswer .fifteenEleven d s)
  | _ => rfl

theorem exec_eq_next_iff (i : Instr) (s t : State) :
    exec i s = .next t ↔ Fits s (instrLoad s.tables i) ∧ t = s.complete i := by
  rw [exec_eq_within]
  constructor
  · exact within_eq_next
  · rintro ⟨hfit, rfl⟩
    exact within_of_fits hfit _

section Complete
variable (s : State) (i : Instr)

@[simp] theorem complete_status : (s.complete i).status = (s.finish (instrAnswer s.tables i)).status := by
  unfold State.complete; split <;> rfl

@[simp] theorem complete_tables : (s.complete i).tables = s.tables := by
  unfold State.complete; split <;> simp

@[simp] theorem complete_capacities : (s.complete i).capacities = s.capacities := by
  unfold State.complete; split <;> simp

@[simp] theorem complete_inbox : (s.complete i).inbox = s.inbox := by
  unfold State.complete; split <;> simp

@[simp] theorem complete_outbox :
    (s.complete i).outbox = s.outbox ++ [.response (responseOf (instrAnswer s.tables i))] := by
  unfold State.complete; split <;> simp [finish_outbox]

@[simp] theorem complete_dedup : (s.complete i).dedup = if isCompress i then none else s.dedup := by
  unfold State.complete; split <;> simp

/-- A completion is the response's effect, and the end of a COMPRESS's table. -/
theorem complete_eq_afterResponse :
    s.complete i =
      { s.afterResponse (responseOf (instrAnswer s.tables i)) with dedup := (s.complete i).dedup } := by
  rw [complete_dedup, State.complete, finish_eq_afterResponse]
  split
  · rfl
  · cases responseOf (instrAnswer s.tables i) <;> rfl

end Complete

/-! ### The fields of STATUS after a completion -/

theorem statusReserved_completionStatus (code : BitVec 4) : statusReserved (completionStatus code) = 0 := by
  revert code; decide

theorem statusDone_completionStatus (code : BitVec 4) : statusDone (completionStatus code) = true := by
  revert code; decide

theorem statusErr_completionStatus (code : BitVec 4) : statusErr (completionStatus code) = code := by
  revert code; decide

/-- ERR as a response tells it: 0 after a result, the code after a fault (R24). -/
def responseCode : Response → BitVec 4
  | .ok _ => 0
  | .fault code => code

theorem finish_status (s : State) (a : Checked Result) :
    (s.finish a).status = completionStatus (responseCode (responseOf a)) := by
  cases a <;> rfl

/-- Settles O12: the completion's response is the one, and STATUS is its completion status. -/
theorem commandsChangeOnlyStatusAndResponse : Obligations.CommandsChangeOnlyStatusAndResponse := by
  intro i s t h
  obtain ⟨-, rfl⟩ := (exec_eq_next_iff i s t).1 h
  refine ⟨responseOf (instrAnswer s.tables i), complete_eq_afterResponse s i, ?_, ?_, ?_, complete_dedup s i⟩
  · rw [complete_status, finish_status, statusReserved_completionStatus]
  · rw [complete_status, finish_status, statusDone_completionStatus]
  · rw [complete_status, finish_status, statusErr_completionStatus]
    cases responseOf (instrAnswer s.tables i) <;> rfl

/-! ### The invariant -/

/-- A completion keeps the invariant: STATUS is legal whatever the answer, and no command makes a table that stays. -/
theorem engineInv_complete {s : State} (h : EngineInv s) (i : Instr) : EngineInv (s.complete i) := by
  obtain ⟨htables, -, hdedup⟩ := h
  refine ⟨?_, ?_, ?_⟩
  · rw [complete_tables]; exact htables
  · rw [complete_status]; exact finish_statusLegal s _
  · rw [complete_dedup, hdedup, ite_self]

theorem statusLegal_zero : statusLegal 0x00 = true := by decide

/-- The invariant does not read the channel. -/
theorem engineInv_inbox {s : State} (h : EngineInv s) (rest : List HostAction) :
    EngineInv { s with inbox := rest } := h

/-- Settles O14, over what a step can do. -/
theorem stepKeepsTheInvariant : Obligations.StepKeepsTheInvariant := by
  intro s t hinv hstep
  rcases step_cases hstep with ⟨-, rfl⟩ | ⟨r, rest, i, -, -, hexec⟩ | ⟨r, rest, e, -, -, rfl⟩ | ⟨rest, -, rfl⟩ |
    ⟨b, rest, -, rfl⟩ | ⟨rest, -, hvalid, rfl⟩
  case inl => exact hinv
  case inr.inl =>
    obtain ⟨-, rfl⟩ := (exec_eq_next_iff i _ t).1 hexec
    exact engineInv_complete (engineInv_inbox hinv rest) i
  case inr.inr.inl =>
    obtain ⟨htables, -, hdedup⟩ := hinv
    exact ⟨htables, statusLegal_completion .illegalCommand, hdedup⟩
  case inr.inr.inr.inl => exact hinv
  case inr.inr.inr.inr.inl => exact hinv
  case inr.inr.inr.inr.inr => exact ⟨hvalid, statusLegal_zero, rfl⟩

/-- Settles O13. -/
theorem resetMeetsTheInvariant : Obligations.ResetMeetsTheInvariant :=
  ⟨defaultTables_valid, statusLegal_zero, rfl⟩

/-! ### One request, and runs of requests -/

theorem lastResponse_of_outbox {s : State} {ds : List Delivery} {p : Response}
    (h : s.outbox = ds ++ [.response p]) : s.lastResponse = some p := by
  simp [State.lastResponse, h]

/-- An answered request leaves one response more, and the tables, the capacities and the channel as they were (R32). -/
theorem answerRequest_frame {r : Request} {s t : State} (h : answerRequest r s = .next t) :
    t.inbox = s.inbox ∧ t.tables = s.tables ∧ t.capacities = s.capacities ∧
      ∃ p : Response, t.outbox = s.outbox ++ [.response p] := by
  cases hd : decode r with
  | ok i =>
    rw [answerRequest_ok hd] at h
    obtain ⟨-, rfl⟩ := (exec_eq_next_iff i s t).1 h
    exact ⟨complete_inbox s i, complete_tables s i, complete_capacities s i, _, complete_outbox s i⟩
  | error e =>
    rw [answerRequest_error hd] at h
    cases h
    exact ⟨rfl, rfl, rfl, _, raise_outbox s _⟩

/-- The engine in state `s` gives this response to this request, issued alone. -/
def RespondsWith (s : State) (r : Request) (p : Response) : Prop :=
  ∃ u, answerRequest r s = .next u ∧ u.lastResponse = some p

/-- The response is fixed by the request, the tables and the capacities (R47). -/
theorem respondsWith_congr {r : Request} {p : Response} {s s' : State} (htables : s'.tables = s.tables)
    (hcapacities : s'.capacities = s.capacities) (h : RespondsWith s r p) : RespondsWith s' r p := by
  obtain ⟨u, hu, hp⟩ := h
  cases hd : decode r with
  | ok i =>
    rw [answerRequest_ok hd] at hu
    obtain ⟨hfit, rfl⟩ := (exec_eq_next_iff i s u).1 hu
    have hfit' : Fits s' (instrLoad s'.tables i) := by rwa [Fits, htables, hcapacities]
    refine ⟨s'.complete i, (answerRequest_ok hd s').trans ((exec_eq_next_iff i s' _).2 ⟨hfit', rfl⟩), ?_⟩
    rw [← hp, lastResponse_of_outbox (complete_outbox s i), lastResponse_of_outbox (complete_outbox s' i), htables]
  | error e =>
    rw [answerRequest_error hd] at hu
    cases hu
    refine ⟨_, answerRequest_error hd s', ?_⟩
    rw [← hp, lastResponse_of_outbox (raise_outbox s _), lastResponse_of_outbox (raise_outbox s' _)]

/-- A run that is not stopped takes its first step and goes on. -/
theorem run_succ_eq_next {M : Host.Core} {k : Nat} {s t : M.State} (h : M.run (k + 1) s = .next t) :
    ∃ u, M.step s = .next u ∧ M.run k u = .next t := by
  unfold Host.Core.run at h
  split at h
  · exact ⟨_, ‹_›, h⟩
  · cases h
  · cases h

/-- Settles O17, by induction on the requests: the first leaves the tables and the capacities, so that the others are
answered as in the start state. -/
theorem responsesComeInRequestOrder : Obligations.ResponsesComeInRequestOrder := by
  intro rs
  induction rs with
  | nil =>
    intro s t hinbox hrun
    obtain rfl : s = t := Host.Outcome.next.inj hrun
    exact ⟨hinbox, rfl, rfl, [], rfl, by simp, by simp⟩
  | cons r rs ih =>
    intro s t hinbox hrun
    obtain ⟨u, hstep, hrest⟩ := run_succ_eq_next hrun
    have hanswer : answerRequest r { s with inbox := rs.map .request } = .next u := (step_cons hinbox).symm.trans hstep
    obtain ⟨huInbox, huTables, huCapacities, p, huOutbox⟩ := answerRequest_frame hanswer
    obtain ⟨htInbox, htTables, htCapacities, ps, hlen, htOutbox, hps⟩ := ih u t huInbox hrest
    refine ⟨htInbox, htTables.trans huTables, htCapacities.trans huCapacities, p :: ps, congrArg (· + 1) hlen, ?_, ?_⟩
    · rw [htOutbox, huOutbox]; simp
    · intro j r' p' hr hp
      cases j with
      | zero =>
        obtain rfl : r = r' := by simpa using hr
        obtain rfl : p = p' := by simpa using hp
        exact respondsWith_congr (s := { s with inbox := rs.map .request }) rfl rfl
          ⟨u, hanswer, lastResponse_of_outbox huOutbox⟩
      | succ j =>
        have hlater : RespondsWith u r' p' := hps j r' p' (by simpa using hr) (by simpa using hp)
        exact respondsWith_congr huTables.symm huCapacities.symm hlater

/-! ### The dedup table inside a COMPRESS -/

/-- A dedup table's keys are distinct k-bit vectors (R26). -/
def DedupOk (f : Family) (dt : DedupTable) : Prop :=
  (dt.map Prod.fst).Nodup ∧ ∀ x ∈ dt, x.1.length = messageLen f

/-- The base that DECODE gives has k bits (R111). -/
theorem decodeBlock_base_length {tables : CodeTables} {f : Family} {w b syn : Bits}
    (h : decodeBlock tables (some f) w = .ok (b, syn)) : b.length = messageLen f := by
  by_cases hw : w.length = blockLen f
  · cases hs : syndrome tables f w with
    | error e => simp [decodeBlock, hw, select_explicit, hs, bind, Except.bind] at h
    | ok s =>
      cases hc : correctCore tables f w s with
      | error e => simp [decodeBlock, hw, select_explicit, hs, hc, bind, Except.bind] at h
      | ok c =>
        rw [decodeBlock_eq_ok hw hs hc] at h
        cases h
        exact length_dataBits tables f c
  · simp [decodeBlock, select_explicit_wrong hw, bind, Except.bind] at h

/-- A lookup that fails finds the key nowhere in the table (R134). -/
theorem not_mem_keys_of_dedupLookup {s : State} {b : Bits} (h : s.dedupLookup b = none) :
    b ∉ (s.dedup.getD []).map Prod.fst := by
  intro hb
  obtain ⟨x, hx, rfl⟩ := List.mem_map.1 hb
  simpa using List.lookup_eq_none_iff.1 h x hx

/-- The dedup step keeps the table's keys distinct: it inserts only what it did not find. -/
theorem dedupOk_dedupStep {f : Family} {b : Bits} {s : State} (hb : b.length = messageLen f)
    (h : DedupOk f (s.dedup.getD [])) (dev : Bits) (out : Emitted) :
    DedupOk f ((dedupStep b dev out s).2.dedup.getD []) := by
  rcases dedupStep_cases b dev out s with ⟨j, -, hstep⟩ | ⟨hlookup, hstep⟩
  · rw [hstep]; exact h
  · obtain ⟨hnodup, hwidth⟩ := h
    rw [hstep, dedupInsert_dedup, Option.getD_some]
    constructor
    · rw [List.map_append]
      exact hnodup.append (List.nodup_singleton b) (List.disjoint_singleton.2 (not_mem_keys_of_dedupLookup hlookup))
    · intro x hx
      rcases List.mem_append.1 hx with hx | hx
      · exact hwidth x hx
      · rw [List.mem_singleton.1 hx]; exact hb

theorem dedupOk_compressLoop {f : Family} (xs : List (Bits × Bit)) (out : Emitted) {s : State}
    (h : DedupOk f (s.dedup.getD [])) : DedupOk f ((compressLoop f xs out s).2.dedup.getD []) := by
  induction xs generalizing out s with
  | nil => exact h
  | cons x rest ih =>
    obtain ⟨w, carry⟩ := x
    cases hd : decodeBlock s.tables (some f) w with
    | error e => rw [compressLoop_cons_error hd]; exact h
    | ok d =>
      obtain ⟨b, syn⟩ := d
      rw [compressLoop_cons_ok hd]
      exact ih _ (dedupOk_dedupStep (decodeBlock_base_length hd) h _ _)

/-- There are only 2^k keys of k bits. -/
theorem length_le_of_dedupOk {f : Family} {dt : DedupTable} (h : DedupOk f dt) : dt.length ≤ 2 ^ messageLen f := by
  obtain ⟨hnodup, hwidth⟩ := h
  have hsub : dt.map Prod.fst ⊆ allBits (messageLen f) := by
    intro b hb
    obtain ⟨x, hx, rfl⟩ := List.mem_map.1 hb
    exact (mem_allBits _ _).2 (hwidth x hx)
  simpa using (hnodup.subperm hsub).length_le

/-- Settles O43: the loop starts with the empty table, keeps its keys distinct and of k bits, and so keeps it small. -/
theorem dedupTableIsBounded : Obligations.DedupTableIsBounded := by
  intro f s xs dt _ hdt
  have hok : DedupOk f ((compressLoop f xs ⟨[], []⟩ s.openDedup).2.dedup.getD []) :=
    dedupOk_compressLoop xs ⟨[], []⟩ ⟨List.nodup_nil, by simp⟩
  rw [hdt, Option.getD_some] at hok
  obtain ⟨hnodup, hwidth⟩ := hok
  exact ⟨hnodup, hwidth, length_le_of_dedupOk ⟨hnodup, hwidth⟩⟩

/-! ### Single actions of the host -/

/-- Settles O7. -/
theorem stepRunsTheDecodedInstruction : Obligations.StepRunsTheDecodedInstruction := by
  intro s r rest i hinbox hdecode
  rw [step_cons hinbox, takeAction_request, answerRequest_ok hdecode]

/-- Settles O8, one clause per form of the channel. -/
theorem statusPortReadsAndIgnoresWrites : Obligations.StatusPortReadsAndIgnoresWrites := by
  intro s b rest
  refine ⟨?read, ?write, ?idle⟩
  case read => intro hinbox; rw [step_cons hinbox]; rfl
  case write => intro hinbox; rw [step_cons hinbox]; rfl
  case idle => exact step_idle

theorem boot_valid {c : Config} (h : tablesValid c.tables = true) : boot c = .next (State.initial c) := by
  rw [boot, if_pos h]

theorem boot_invalid {c : Config} (h : tablesValid c.tables = false) : boot c = .refused .invalidConfiguration := by
  simp [boot, h]

theorem takeAction_reset_invalid {s : State} (h : tablesValid s.tables = false) :
    takeAction .reset s = .refused .invalidConfiguration := by
  simp [takeAction, State.resetEngine, h]

/-- Settles O9. -/
theorem resetLeavesStatusZeroAndNoTable : Obligations.ResetLeavesStatusZeroAndNoTable := by
  intro c hvalid
  exact ⟨State.initial c, boot_valid hvalid, by simp [statusErr], by simp [statusDone], by simp [statusReserved],
    initial_dedup c, initial_tables c, initial_capacities c⟩

/-- Settles O10: the check decides, at a reset between commands and at the start. -/
theorem resetChecksTheConfiguration : Obligations.ResetChecksTheConfiguration := by
  refine ⟨?valid, ?invalid, fun c => boot_invalid⟩
  case valid =>
    intro s rest hinbox hvalid
    rw [step_cons hinbox]
    exact takeAction_reset (s := { s with inbox := rest }) hvalid
  case invalid =>
    intro s rest hinbox hinvalid
    rw [step_cons hinbox]
    exact takeAction_reset_invalid (s := { s with inbox := rest }) hinvalid

end Sys2Proof.Machine
end

section
/-! Memory (spec/20_memory.md R40 to R43, R47): the byte codec, the chunks of a byte stream, and what a response
depends on. -/

namespace Sys2Proof.Machine

/-! ### The number a bit vector spells -/

/-- The fold that reads a vector shifts what it starts from past the vector's bits. -/
theorem foldl_natOfBits (v : Bits) (acc : Nat) :
    v.foldl (fun acc b => 2 * acc + b.toNat) acc = 2 ^ v.length * acc + natOfBits v := by
  induction v generalizing acc with
  | nil => simp [natOfBits]
  | cons b v ih =>
    rw [natOfBits, List.foldl_cons, List.foldl_cons, ih, ih, List.length_cons]
    ring

/-- The first element weighs the most: it stands above all the bits that follow it. -/
theorem natOfBits_cons (b : Bit) (v : Bits) : natOfBits (b :: v) = 2 ^ v.length * b.toNat + natOfBits v := by
  rw [natOfBits, List.foldl_cons, foldl_natOfBits, Nat.mul_zero, Nat.zero_add]

theorem natOfBits_lt (v : Bits) : natOfBits v < 2 ^ v.length := by
  induction v with
  | nil => simp [natOfBits]
  | cons b v ih =>
    have hb : 2 ^ v.length * b.toNat ≤ 2 ^ v.length * 1 := Nat.mul_le_mul_left _ b.toNat_le
    rw [natOfBits_cons, List.length_cons, Nat.pow_succ]
    omega

@[simp] theorem bitAt_cons_zero (b : Bit) (v : Bits) : bitAt (b :: v) 0 = b := rfl

@[simp] theorem bitAt_cons_succ (b : Bit) (v : Bits) (i : Nat) : bitAt (b :: v) (i + 1) = bitAt v i := rfl

/-- MSB first: element i of a vector is bit `len - 1 - i` of the number it spells. -/
theorem testBit_natOfBits (v : Bits) {i : Nat} (hi : i < v.length) :
    (natOfBits v).testBit (v.length - 1 - i) = bitAt v i := by
  induction v generalizing i with
  | nil => simp at hi
  | cons b v ih =>
    rw [natOfBits_cons, Nat.testBit_two_pow_mul_add _ (natOfBits_lt v), List.length_cons, Nat.add_sub_cancel]
    cases i with
    | zero => cases b <;> simp
    | succ i =>
      have hi' : i < v.length := Nat.lt_of_succ_lt_succ hi
      rw [if_pos (by omega), bitAt_cons_succ, ← ih hi', Nat.sub_sub, Nat.add_comm]

/-- The weighted sum of R40, for every length. -/
theorem natOfBits_eq_sum (v : Bits) :
    natOfBits v = ((List.range v.length).map fun i => (bitAt v i).toNat * 2 ^ (v.length - 1 - i)).sum := by
  induction v with
  | nil => rfl
  | cons b v ih =>
    rw [natOfBits_cons, ih, List.length_cons, List.range_succ_eq_map]
    simp [Function.comp_def, Nat.mul_comm, Nat.sub_sub, Nat.add_comm 1]

/-! ### The byte codec -/

theorem getElem?_byteToBits (b : Byte) {i : Nat} (hi : i < 8) : (byteToBits b)[i]? = some (b.getLsbD (7 - i)) := by
  simp [byteToBits, hi]

theorem bitAt_byteToBits (b : Byte) {i : Nat} (hi : i < 8) : bitAt (byteToBits b) i = b.getLsbD (7 - i) := by
  rw [bitAt, List.getD_eq_getElem?_getD, getElem?_byteToBits b hi, Option.getD_some]

theorem toNat_bitsToByte {v : Bits} (hv : v.length = 8) : (bitsToByte v).toNat = natOfBits v := by
  rw [bitsToByte, BitVec.toNat_ofNat, Nat.mod_eq_of_lt (hv ▸ natOfBits_lt v)]

theorem getLsbD_bitsToByte {v : Bits} (hv : v.length = 8) {i : Nat} (hi : i < 8) :
    (bitsToByte v).getLsbD (7 - i) = bitAt v i := by
  have hbit := testBit_natOfBits v (hv.symm ▸ hi)
  rw [hv] at hbit
  rw [BitVec.getLsbD, toNat_bitsToByte hv]
  exact hbit

@[simp] theorem bitsToByte_byteToBits (b : Byte) : bitsToByte (byteToBits b) = b := by
  refine BitVec.eq_of_getLsbD_eq fun j hj => ?_
  have hrev : 7 - (7 - j) = j := by omega
  have hget := getLsbD_bitsToByte (length_byteToBits b) (i := 7 - j) (by omega)
  rwa [bitAt_byteToBits b (by omega), hrev] at hget

theorem byteToBits_bitsToByte {v : Bits} (hv : v.length = 8) : byteToBits (bitsToByte v) = v := by
  refine List.ext_getElem (by rw [length_byteToBits, hv]) fun i hi hi' => ?_
  have hget : bitAt v i = v[i] := List.getD_eq_getElem v false hi'
  rw [← hget, ← getLsbD_bitsToByte hv (hv ▸ hi')]
  simp [byteToBits]

/-- Settles O37. -/
theorem byteCodecIsExact : Obligations.ByteCodecIsExact := by
  refine ⟨fun b => ⟨length_byteToBits b, bitsToByte_byteToBits b, fun i hi => ?bit⟩,
    fun v hv => ⟨byteToBits_bitsToByte hv, ?sum⟩⟩
  case bit => rw [getElem?_byteToBits b hi, BitVec.getLsbD_ushiftRight, Nat.add_zero]
  case sum => rw [toNat_bitsToByte hv, natOfBits_eq_sum, hv]

/-! ### Chunks -/

@[simp] theorem slice_zero (v : Bits) (n : Nat) : slice v 0 n = v.take n := rfl

/-- The last bit of a byte in bit order is its least significant bit. -/
@[simp] theorem bitAt_byteToBits_last (b : Byte) : bitAt (byteToBits b) 7 = b.getLsbD 0 :=
  bitAt_byteToBits b (by decide)

theorem bitAt_append_right (v w : Bits) {i n : Nat} (hv : v.length = n) : bitAt (v ++ w) (n + i) = bitAt w i := by
  subst hv
  simp [bitAt, List.getElem?_append_right]

theorem chunks_sevenFour (d : List Byte) :
    chunks .sevenFour d = d.map fun b => ((byteToBits b).take 7, b.getLsbD 0) := by
  simp [chunks, chunkBits, blockLen]

/-- The first two bytes of a FifteenEleven stream are its first chunk, the earlier byte first (R41). -/
theorem chunks_fifteenEleven_cons_cons (a b : Byte) (d : List Byte) :
    chunks .fifteenEleven (a :: b :: d) =
      ((byteToBits a ++ byteToBits b).take 15, b.getLsbD 0) :: chunks .fifteenEleven d := by
  have hcarry : bitAt (byteToBits a ++ byteToBits b) 15 = b.getLsbD 0 :=
    (bitAt_append_right _ _ (i := 7) (length_byteToBits a)).trans (bitAt_byteToBits_last b)
  simp [chunks, chunkBits, blockLen, hcarry]

theorem length_chunks_fifteenEleven (d : List Byte) : (chunks .fifteenEleven d).length = d.length / 2 := by
  induction d using List.twoStepInduction with
  | nil => rfl
  | singleton a => simp [chunks, chunkBits]
  | cons_cons a b d ih _ =>
    rw [chunks_fifteenEleven_cons_cons, List.length_cons, ih, List.length_cons, List.length_cons]
    omega

theorem getElem?_chunks_fifteenEleven {d : List Byte} {i : Nat} {a b : Byte} (ha : d[2 * i]? = some a)
    (hb : d[2 * i + 1]? = some b) :
    (chunks .fifteenEleven d)[i]? = some ((byteToBits a ++ byteToBits b).take 15, b.getLsbD 0) := by
  induction d using List.twoStepInduction generalizing i with
  | nil => simp at ha
  | singleton c => simp at hb
  | cons_cons c c' d ih _ =>
    rw [chunks_fifteenEleven_cons_cons]
    cases i with
    | zero =>
      obtain rfl : c = a := Option.some.inj ha
      obtain rfl : c' = b := Option.some.inj hb
      rfl
    | succ i => exact ih ha hb

/-- Settles O38. -/
theorem chunksAreWindowsAndCarries : Obligations.ChunksAreWindowsAndCarries := by
  intro d
  refine ⟨?_, length_chunks_fifteenEleven d, ?_, fun i a b ha hb => getElem?_chunks_fifteenEleven ha hb⟩
  · rw [chunks_sevenFour, List.length_map]
  · intro i b hb
    rw [chunks_sevenFour, List.getElem?_map, hb, Option.map_some]

/-! ### The bytes of the chunks -/

/-- A window and its carry are together the chunk they were cut from (R42). -/
theorem window_append_carry {x : Bits} {n : Nat} (hx : x.length = n + 1) : slice x 0 n ++ [bitAt x n] = x := by
  have hn : n < x.length := by omega
  have hcarry : bitAt x n = x[n] := List.getD_eq_getElem x false hn
  rw [slice_zero, hcarry, List.take_concat_get', ← hx, List.take_length]

/-- The bytes of windows and carries are the bytes of the whole chunks. -/
theorem flatMap_bytesOfChunk_chunks (f : Family) (d : List Byte) :
    (chunks f d).flatMap (fun x => bytesOfChunk f (x.1 ++ [x.2])) = (chunkBits f d).flatMap (bytesOfChunk f) := by
  rw [chunks, List.flatMap_map]
  refine List.flatMap_congr fun x hx => ?_
  rw [window_append_carry (length_of_mem_chunkBits f d x hx)]

/-- The two bytes of a FifteenEleven chunk come back in their order (R43). -/
theorem bytesOfChunk_two_bytes (a b : Byte) :
    bytesOfChunk .fifteenEleven (byteToBits a ++ byteToBits b) = [a, b] := by
  have hfirst : slice (byteToBits a ++ byteToBits b) 0 8 = byteToBits a := List.take_left' (length_byteToBits a)
  have hsecond : slice (byteToBits a ++ byteToBits b) 8 16 = byteToBits b := by
    rw [slice, List.drop_left' (length_byteToBits a), List.take_of_length_le (by simp)]
  simp only [bytesOfChunk, hfirst, hsecond, bitsToByte_byteToBits]

theorem flatMap_bytesOfChunk_chunkBits {f : Family} {d : List Byte} (h : d.length % chunkBytes f = 0) :
    (chunkBits f d).flatMap (bytesOfChunk f) = d := by
  cases f with
  | sevenFour => simp [chunkBits, bytesOfChunk, List.flatMap_map]
  | fifteenEleven =>
    induction d using List.twoStepInduction with
    | nil => rfl
    | singleton a => simp [chunkBytes] at h
    | cons_cons a b d ih _ =>
      have hrest : d.length % chunkBytes .fifteenEleven = 0 :=
        (Nat.add_mod_right d.length 2).symm.trans h
      rw [chunkBits, List.flatMap_cons, bytesOfChunk_two_bytes, ih hrest]
      rfl

/-- Settles O40: first the chunks are put together again, then the bytes are read back from them. -/
theorem chunkBytesInvertChunking : Obligations.ChunkBytesInvertChunking := fun f d h =>
  (flatMap_bytesOfChunk_chunks f d).trans (flatMap_bytesOfChunk_chunkBits h)

/-! ### What a response depends on -/

/-- Settles O16: an answered request has a response (R32), and a state with the same tables and capacities gives it
too. -/
theorem sameRequestGivesSameResponse : Obligations.SameRequestGivesSameResponse := by
  intro r s s' t htables hcapacities hanswer
  obtain ⟨-, -, -, p, houtbox⟩ := answerRequest_frame hanswer
  have hresponse : t.lastResponse = some p := lastResponse_of_outbox houtbox
  obtain ⟨t', hanswer', hresponse'⟩ := respondsWith_congr htables hcapacities ⟨t, hanswer, hresponse⟩
  exact ⟨t', p, hanswer', hresponse, hresponse'⟩

end Sys2Proof.Machine
end

section
/-! Encoding (spec/30_encoding.md R60 to R73). First the command word and the operands, each as the decoder reads it and
as the encoder writes it; then requests, the assembler's names and pseudo-instructions, and host programs. -/

namespace Sys2Proof.Machine

/-! ### The command word (R60 to R65) -/

/-- The three fields make up the word (R60). -/
theorem fields_append (word : Byte) :
    word.extractLsb' 4 4 ++ word.extractLsb' 2 2 ++ word.extractLsb' 0 2 = word := by
  revert word; decide +kernel

/-- The tables of R61 and R62 name a command by its own OP and FAM only. -/
theorem commandOfFields_eq_some {op fam : Nat} {c : Command} (h : commandOfFields op fam = some c) :
    op = c.op.toNat ∧ fam = c.fam.toNat := by
  unfold commandOfFields at h
  split at h <;> cases h <;> exact ⟨rfl, rfl⟩

/-- A word decodes to a command exactly when it is that command's word. -/
theorem decodeWord_eq_ok_iff (word : Byte) (c : Command) : decodeWord word = .ok c ↔ word = c.word := by
  constructor
  · intro h
    unfold decodeWord at h
    split at h
    · cases h
    · next hrsv =>
      split at h
      · cases h
      · split at h
        · next c' hc =>
          obtain rfl : c' = c := Except.ok.inj h
          obtain ⟨hop, hfam⟩ := commandOfFields_eq_some hc
          have hrsv : word.extractLsb' 0 2 = 0 := BitVec.eq_of_toNat_eq (not_not.1 hrsv)
          rw [← fields_append word, BitVec.eq_of_toNat_eq hop, BitVec.eq_of_toNat_eq hfam, hrsv]
          rfl
        · cases h
  · rintro rfl
    exact Laws.decodeWord_word c

/-- The table of signatures lists the words of the commands (R64, R65). -/
theorem exists_word_of_signatureOfWord {word : Byte} {signature : List OperandType}
    (h : signatureOfWord word = some signature) : ∃ c : Command, word = c.word := by
  have hlisted : ∀ w : Byte, signatureOfWord w = none ∨ ∃ c ∈ allCommands, w = c.word := by decide +kernel
  rcases hlisted word with hnone | ⟨c, -, hc⟩
  · rw [hnone] at h; cases h
  · exact ⟨c, hc⟩

/-- The two accounts of the legal words agree: the decoder's field tests and the table of signatures. -/
theorem decodeWord_ok_iff_signature (word : Byte) :
    (∃ c, decodeWord word = .ok c) ↔ (signatureOfWord word).isSome = true := by
  constructor
  · rintro ⟨c, hc⟩
    rw [(decodeWord_eq_ok_iff word c).1 hc, Laws.signatureOfWord_word]
    rfl
  · intro h
    obtain ⟨signature, hs⟩ := Option.isSome_iff_exists.1 h
    obtain ⟨c, hc⟩ := exists_word_of_signatureOfWord hs
    exact ⟨c, (decodeWord_eq_ok_iff word c).2 hc⟩

theorem decodeWord_reserved {word : Byte} (h : word.extractLsb' 0 2 ≠ 0) :
    decodeWord word = .error .reservedBits := by
  have hrsv : rsvField word ≠ 0 := fun hz => h (BitVec.eq_of_toNat_eq hz)
  rw [decodeWord, if_pos hrsv]

/-! ### Operands (R64, R66) -/

theorem bitOfScalar_scalarOfBit (b : Bit) : bitOfScalar (scalarOfBit b) = some b := by cases b <;> rfl

theorem bitOfScalar_eq_some {n : Int} {b : Bit} (h : bitOfScalar n = some b) : n = scalarOfBit b := by
  unfold bitOfScalar at h
  split at h
  · cases h; assumption
  · split at h
    · cases h; assumption
    · cases h

theorem twoBits_scalarOfBit (make : Bit → Bit → Instr) (a b : Bit) :
    twoBits make (scalarOfBit a) (scalarOfBit b) = some (make a b) := by
  simp only [twoBits, bitOfScalar_scalarOfBit]

/-- Two scalars fill two Bit slots only as the scalars of two bits. -/
theorem twoBits_eq_some {make : Bit → Bit → Instr} {m n : Int} {i : Instr} (h : twoBits make m n = some i) :
    ∃ a b, m = scalarOfBit a ∧ n = scalarOfBit b ∧ i = make a b := by
  unfold twoBits at h
  split at h
  · next a b ha hb => exact ⟨a, b, bitOfScalar_eq_some ha, bitOfScalar_eq_some hb, (Option.some.inj h).symm⟩
  · cases h

/-- An instruction's command takes its operands back to it. -/
theorem withOperands_operands (i : Instr) : i.command.withOperands i.operands = some i := by
  cases i with
  | add a b => exact twoBits_scalarOfBit .add a b
  | mul a b => exact twoBits_scalarOfBit .mul a b
  | _ => rfl

/-- A command takes no operands but those of the instruction it gives. -/
theorem command_operands_of_withOperands {c : Command} {os : List Operand} {i : Instr}
    (h : c.withOperands os = some i) : i.command = c ∧ i.operands = os := by
  unfold Command.withOperands at h
  split at h
  case h_1 | h_2 =>
    obtain ⟨a, b, rfl, rfl, rfl⟩ := twoBits_eq_some h
    exact ⟨rfl, rfl⟩
  all_goals cases h <;> exact ⟨rfl, rfl⟩

/-- A Bit slot takes the scalars of bits (D27). -/
theorem hasType_bit {o : Operand} (h : o.hasType .bit = true) : ∃ b, o = .scalar (scalarOfBit b) := by
  cases o with
  | scalar n =>
    rcases Bool.or_eq_true_iff.1 h with hn | hn
    · exact ⟨false, congrArg _ (eq_of_beq hn)⟩
    · exact ⟨true, congrArg _ (eq_of_beq hn)⟩
  | _ => cases h

theorem hasType_bitVec {o : Operand} (h : o.hasType .bitVec = true) : ∃ v, o = .bits v := by
  cases o with
  | bits v => exact ⟨v, rfl⟩
  | _ => cases h

theorem hasType_matrix {o : Operand} (h : o.hasType .matrix = true) : ∃ m, o = .matrix m := by
  cases o with
  | matrix m => exact ⟨m, rfl⟩
  | _ => cases h

theorem hasType_bytes {o : Operand} (h : o.hasType .bytes = true) : ∃ d, o = .bytes d := by
  cases o with
  | bytes d => exact ⟨d, rfl⟩
  | _ => cases h

theorem hasType_stream {o : Operand} (h : o.hasType .stream = true) : ∃ cs, o = .stream cs := by
  cases o with
  | stream cs => exact ⟨cs, rfl⟩
  | _ => cases h

theorem operandsHaveTypes_one {os : List Operand} {t : OperandType} (h : operandsHaveTypes os [t] = true) :
    ∃ a, os = [a] ∧ a.hasType t = true := by
  match os with
  | [] => cases h
  | [a] => exact ⟨a, rfl, (Bool.and_eq_true_iff.1 h).1⟩
  | a :: b :: os => exact absurd (Bool.and_eq_true_iff.1 h).2 Bool.false_ne_true

theorem operandsHaveTypes_two {os : List Operand} {t u : OperandType} (h : operandsHaveTypes os [t, u] = true) :
    ∃ a b, os = [a, b] ∧ a.hasType t = true ∧ b.hasType u = true := by
  match os with
  | [] => cases h
  | a :: os =>
    obtain ⟨ha, hos⟩ := Bool.and_eq_true_iff.1 h
    obtain ⟨b, rfl, hb⟩ := operandsHaveTypes_one hos
    exact ⟨a, b, rfl, ha, hb⟩

/-- A command takes any operands of its signature. -/
theorem exists_withOperands {c : Command} {os : List Operand}
    (h : operandsHaveTypes os (Laws.commandSignature c) = true) : ∃ i, c.withOperands os = some i := by
  cases c
  case add | mul =>
    obtain ⟨_, _, rfl, ha, hb⟩ := operandsHaveTypes_two h
    obtain ⟨a, rfl⟩ := hasType_bit ha
    obtain ⟨b, rfl⟩ := hasType_bit hb
    exact ⟨_, twoBits_scalarOfBit _ a b⟩
  case vmm =>
    obtain ⟨_, _, rfl, hv, hm⟩ := operandsHaveTypes_two h
    obtain ⟨v, rfl⟩ := hasType_bitVec hv
    obtain ⟨m, rfl⟩ := hasType_matrix hm
    exact ⟨_, rfl⟩
  case mvm =>
    obtain ⟨_, _, rfl, hm, hv⟩ := operandsHaveTypes_two h
    obtain ⟨m, rfl⟩ := hasType_matrix hm
    obtain ⟨v, rfl⟩ := hasType_bitVec hv
    exact ⟨_, rfl⟩
  case encode | encode74 | encode1511 | decode | decode74 | decode1511 =>
    obtain ⟨_, rfl, hv⟩ := operandsHaveTypes_one h
    obtain ⟨v, rfl⟩ := hasType_bitVec hv
    exact ⟨_, rfl⟩
  case correct | correct74 | correct1511 =>
    obtain ⟨_, _, rfl, hw, he⟩ := operandsHaveTypes_two h
    obtain ⟨w, rfl⟩ := hasType_bitVec hw
    obtain ⟨e, rfl⟩ := hasType_bitVec he
    exact ⟨_, rfl⟩
  case compress74 | compress1511 =>
    obtain ⟨_, rfl, hd⟩ := operandsHaveTypes_one h
    obtain ⟨d, rfl⟩ := hasType_bytes hd
    exact ⟨_, rfl⟩
  case decompress74 | decompress1511 =>
    obtain ⟨_, rfl, hcs⟩ := operandsHaveTypes_one h
    obtain ⟨cs, rfl⟩ := hasType_stream hcs
    exact ⟨_, rfl⟩

/-! ### Requests -/

/-- Decoding succeeds when both of its parts do: the word names a command, and the command takes the operands. -/
theorem decode_eq_ok_iff (r : Request) (i : Instr) :
    decode r = .ok i ↔ ∃ c, decodeWord r.word = .ok c ∧ c.withOperands r.operands = some i := by
  unfold decode
  cases decodeWord r.word with
  | error e => simp
  | ok c => cases h : c.withOperands r.operands <;> simp [h]

/-- The decoder reads an encoded instruction back. -/
theorem decode_encode (i : Instr) : decode (encode i) = .ok i :=
  (decode_eq_ok_iff _ i).2 ⟨i.command, Laws.decodeWord_word i.command, withOperands_operands i⟩

/-- Settles O2: the word fixes the command and the operands fix the rest of the instruction, in both directions. -/
theorem decodeAndEncodeAgree : Obligations.DecodeAndEncodeAgree := by
  intro r i
  constructor
  · intro h
    obtain ⟨c, hword, hoperands⟩ := (decode_eq_ok_iff r i).1 h
    obtain ⟨hc, hos⟩ := command_operands_of_withOperands hoperands
    calc r = ⟨c.word, r.operands⟩ := by rw [← (decodeWord_eq_ok_iff r.word c).1 hword]
      _ = encode i := by rw [← hc, ← hos]; rfl
  · rintro rfl
    exact decode_encode i

/-- Every encoding is well formed, whatever its operands. -/
theorem wellFormed_encode : ∀ i : Instr, (encode i).wellFormed = true
  | .add a b => (Laws.EncodedRequest.add a b).1
  | .mul a b => (Laws.EncodedRequest.mul a b).1
  | .vmm v m => (Laws.EncodedRequest.vmm v m).1
  | .mvm m v => (Laws.EncodedRequest.mvm m v).1
  | .encode u => (Laws.EncodedRequest.encode u).1
  | .encode74 u => (Laws.EncodedRequest.encode74 u).1
  | .encode1511 u => (Laws.EncodedRequest.encode1511 u).1
  | .decode w => (Laws.EncodedRequest.decode w).1
  | .decode74 w => (Laws.EncodedRequest.decode74 w).1
  | .decode1511 w => (Laws.EncodedRequest.decode1511 w).1
  | .correct w e => (Laws.EncodedRequest.correct w e).1
  | .correct74 w e => (Laws.EncodedRequest.correct74 w e).1
  | .correct1511 w e => (Laws.EncodedRequest.correct1511 w e).1
  | .compress74 d => (Laws.EncodedRequest.compress74 d).1
  | .compress1511 d => (Laws.EncodedRequest.compress1511 d).1
  | .decompress74 cs => (Laws.EncodedRequest.decompress74 cs).1
  | .decompress1511 cs => (Laws.EncodedRequest.decompress1511 cs).1

/-- Settles O3: an accepted request is an encoding, and a well-formed one has a listed word and operands that the word's
command takes. -/
theorem decoderAcceptsExactlyWellFormedRequests : Obligations.DecoderAcceptsExactlyWellFormedRequests := by
  intro r
  constructor
  · rintro ⟨i, hi⟩
    rw [(decodeAndEncodeAgree r i).1 hi]
    exact wellFormed_encode i
  · intro h
    obtain ⟨word, os⟩ := r
    cases hs : signatureOfWord word with
    | none => simp [Request.wellFormed, hs] at h
    | some signature =>
      obtain ⟨c, rfl⟩ := exists_word_of_signatureOfWord hs
      rw [Laws.wellFormed_word] at h
      obtain ⟨i, hi⟩ := exists_withOperands h
      exact ⟨i, (decode_eq_ok_iff _ i).2 ⟨c, Laws.decodeWord_word c, hi⟩⟩

/-! ### Rejected requests (R65 to R67) -/

/-- A step that takes a rejected request raises IllegalCommand and does nothing else. -/
theorem step_rejected {s : State} {r : Request} {rest : List HostAction} {e : Rejection}
    (hinbox : s.inbox = .request r :: rest) (hdecode : decode r = .error e) :
    step s = .next (({ s with inbox := rest } : State).afterFault 5) := by
  rw [step_cons hinbox, takeAction_request, answerRequest_error hdecode, raise_eq_afterFault]
  rfl

theorem decode_error_of_word {r : Request} {e : Rejection} (h : decodeWord r.word = .error e) :
    decode r = .error e := by
  rw [decode, h]

/-- Settles O5: the reserved bits are the decoder's first check. -/
theorem reservedBitsAreIllegal : Obligations.ReservedBitsAreIllegal := by
  intro s r rest hinbox hrsv
  exact step_rejected hinbox (decode_error_of_word (decodeWord_reserved hrsv))

/-- Settles O6: what is not well formed is not accepted, so it is rejected. -/
theorem illFormedRequestRaisesIllegalCommand : Obligations.IllFormedRequestRaisesIllegalCommand := by
  intro s r rest hinbox hformed
  cases hdecode : decode r with
  | error e => exact step_rejected hinbox hdecode
  | ok i =>
    have haccepted : r.wellFormed = true := (decoderAcceptsExactlyWellFormedRequests r).1 ⟨i, hdecode⟩
    rw [hformed] at haccepted
    cases haccepted

/-! ### Words and names by enumeration (R65, R69) -/

/-- Settles O1: the first nine words are encodings, and the other four each fail their own check. -/
theorem commandWordsDecodeToTheirCommands : Obligations.CommandWordsDecodeToTheirCommands := by
  have hdecodes : ∀ {r : Request} {i : Instr}, r = encode i → decode r = .ok i :=
    fun {r i} => (decodeAndEncodeAgree r i).2
  exact ⟨hdecodes rfl, hdecodes rfl, hdecodes rfl, hdecodes rfl, hdecodes rfl, hdecodes rfl, hdecodes rfl,
    hdecodes rfl, hdecodes rfl, rfl, rfl, rfl, rfl⟩

/-- Settles O4. -/
theorem exactlySeventeenWordsAreLegal : Obligations.ExactlySeventeenWordsAreLegal :=
  ⟨by decide +kernel, decodeWord_ok_iff_signature⟩

/-- Settles O50. -/
theorem writtenNamesAreReadBack : Obligations.WrittenNamesAreReadBack :=
  ⟨fun c => by cases c <;> decide, by decide⟩

/-! ### Pseudo-instructions (R71) -/

/-- Over a valid table the syndrome that names a position is its column of H, and no other position's (R107). -/
theorem correctCore_col {tables : CodeTables} {f : Family} (h : tableValid f (tables.of f) = true) (w : Bits)
    {j : Nat} (hj : j < blockLen f) : correctCore tables f w (col (tables.of f).H j) = .ok (flipBit w j) := by
  obtain ⟨hshapes, hcolumns, -⟩ := (tableValid_iff f _).1 h
  obtain ⟨-, -, -, -, -, -, -, hc⟩ := (shapesOk_iff f _).1 hshapes
  obtain ⟨hnodup, hzero⟩ := (columnsOk_iff f _).1 hcolumns
  rw [columns, hc] at hnodup hzero
  have hmem : ∀ {i}, i < blockLen f → i ∈ List.range (blockLen f) := List.mem_range.2
  have hnonzero : col (tables.of f).H j ≠ zeros (syndromeLen f) := fun hz =>
    hzero (List.mem_map.2 ⟨j, hmem hj, hz⟩)
  have hfirst : errorPosition tables f (col (tables.of f).H j) = some j := by
    rw [errorPosition, List.find?_range_eq_some]
    refine ⟨beq_self_eq_true _, hmem hj, fun i hi => ?_⟩
    have hdistinct : col (tables.of f).H i ≠ col (tables.of f).H j := fun heq =>
      hi.ne (List.inj_on_of_nodup_map hnodup (hmem (hi.trans hj)) (hmem hj) heq)
    simpa using hdistinct
  rw [correctCore, if_neg hnonzero, hfirst]

/-- CORRECT with an explicit family checks nothing against the capacities (R6) and completes with its answer. -/
theorem exec_correctOf (f : Family) (w e : Bits) (s : State) :
    exec (correctOf f w e) s = .next (s.finish ((correctBlock s.tables (some f) w e).map .bits)) := by
  cases f <;> rfl

/-- SYNDROME of a vector is the request of MVM with the family's H. -/
theorem expandSyndrome_request (tables : CodeTables) (f : Family) (w : Bits) :
    argValues [] (expandSyndrome tables f (.value (.bits w))).args =
        some (encode (.mvm (tables.of f).H w)).operands ∧
      (expandSyndrome tables f (.value (.bits w))).word = (encode (.mvm (tables.of f).H w)).word :=
  ⟨rfl, rfl⟩

/-- FLIP at a position inside the block is the request of CORRECT with that position's column of H. -/
theorem expandFlip_request (tables : CodeTables) {f : Family} (w : Bits) {j : Nat} (hj : j < blockLen f) :
    ∃ c, expandFlip tables f (.value (.bits w)) j = some c ∧
      argValues [] c.args = some (encode (correctOf f w (col (tables.of f).H j))).operands ∧
      c.word = (encode (correctOf f w (col (tables.of f).H j))).word := by
  unfold expandFlip
  rw [if_pos (by omega)]
  cases f <;> exact ⟨_, rfl, rfl, rfl⟩

theorem expandFlip_past (tables : CodeTables) {f : Family} (w : Arg) {j : Nat} (hj : blockLen f ≤ j) :
    expandFlip tables f w j = none := by
  unfold expandFlip
  rw [if_neg (by omega)]

theorem answerRequest_encode (i : Instr) (s : State) : answerRequest (encode i) s = exec i s :=
  answerRequest_ok (decode_encode i) s

/-- Settles O36: each expansion is the encoding of one instruction, and the engine answers that. -/
theorem pseudoInstructionsDoWhatTheyName : Obligations.PseudoInstructionsDoWhatTheyName := by
  intro f s w hvalid hw
  obtain ⟨hshapes, -⟩ := (tableValid_iff f _).1 hvalid
  obtain ⟨-, -, -, -, -, hH, hr, hc⟩ := (shapesOk_iff f _).1 hshapes
  refine ⟨?syndrome, ?flip, fun j hj => expandFlip_past s.tables _ hj⟩
  case syndrome =>
    intro hfit
    obtain ⟨hargs, hword⟩ := expandSyndrome_request s.tables f w
    have he : mvm (s.tables.of f).H w = .ok ((s.tables.of f).H.rows.map fun row => dot row w) :=
      (mvm_eq_ok_iff _ _ _).2 ⟨hH, hw.trans hc.symm, rfl⟩
    refine ⟨_, _, hargs, he, ?_⟩
    rw [hword]
    calc answerRequest (encode (.mvm (s.tables.of f).H w)) s
        = exec (.mvm (s.tables.of f).H w) s := answerRequest_encode _ s
      _ = .next (s.finish ((mvm (s.tables.of f).H w).map .bits)) := within_of_fits hfit _
      _ = .next (s.afterOk (.bits ((s.tables.of f).H.rows.map fun row => dot row w))) := by
        rw [he]; exact congrArg _ (returnOk_eq_afterOk s _)
  case flip =>
    intro j hj
    obtain ⟨c, hexpand, hargs, hword⟩ := expandFlip_request s.tables w hj
    have hlen : (col (s.tables.of f).H j).length = syndromeLen f := by
      rw [length_col, ((matrixOk_iff _).1 hH).1, hr]
    refine ⟨c, _, hexpand, hargs, ?_⟩
    rw [hword]
    calc answerRequest (encode (correctOf f w (col (s.tables.of f).H j))) s
        = exec (correctOf f w (col (s.tables.of f).H j)) s := answerRequest_encode _ s
      _ = .next (s.finish ((correctBlock s.tables (some f) w (col (s.tables.of f).H j)).map .bits)) :=
        exec_correctOf f w _ s
      _ = .next (s.afterOk (.bits (flipBit w j))) := by
        rw [correctBlock_explicit hw hlen, correctCore_col hvalid w hj]
        exact congrArg _ (returnOk_eq_afterOk s _)

/-! ### Runs of host programs (R72, R73) -/

/-- The deliveries of commands that were answered `Ok`. -/
def okDeliveries (results : List Result) : List Delivery := results.map fun r => .response (.ok r)

/-- The results `rs` are what the engine, in state `s`, answers the first commands of `p`, each reference replaced by
the result it names among those before it; `before` are the results of the commands before `p`. -/
def OkAnswers (p : Program) (s : State) (before rs : List Result) : Prop :=
  ∀ (j : Nat) (r : Result), rs[j]? = some r → CommandAnswers p s (before ++ rs.take j) j (.ok r)

/-- How a run of the commands `p` from state `s` to `t` ends, after `before` (R73): all of them were answered `Ok`, or
some of them were and the next raised a code. -/
def RunAnswers (ci : Nat) (before : List Result) (p : Program) (s t : State) (out : RunEnd) : Prop :=
  ∃ rs, OkAnswers p s before rs ∧
    ((out = .finished (before ++ rs) ∧ rs.length = p.length ∧ t.outbox = s.outbox ++ okDeliveries rs) ∨
     (∃ code, out = .faulted (ci + rs.length) code ∧ rs.length < p.length ∧
      t.outbox = s.outbox ++ okDeliveries rs ++ [.response (.fault code)] ∧
      CommandAnswers p s (before ++ rs) rs.length (.fault code)))

/-- The response to a command depends on the state's tables and capacities only (R47). -/
theorem commandAnswers_congr {p : Program} {s s' : State} {results : List Result} {j : Nat} {resp : Response}
    (htables : s'.tables = s.tables) (hcapacities : s'.capacities = s.capacities)
    (h : CommandAnswers p s results j resp) : CommandAnswers p s' results j resp := by
  obtain ⟨c, ops, u, hc, hops, hu, hresp⟩ := h
  obtain ⟨u', hu', hresp'⟩ := respondsWith_congr htables hcapacities ⟨u, hu, hresp⟩
  exact ⟨c, ops, u', hc, hops, hu', hresp'⟩

/-- A command stands one place later in a program with one command more in front. -/
theorem commandAnswers_cons {c : ProgramCommand} {p : Program} {s : State} {results : List Result} {j : Nat}
    {resp : Response} (h : CommandAnswers p s results j resp) : CommandAnswers (c :: p) s results (j + 1) resp := h

theorem okAnswers_nil (p : Program) (s : State) (before : List Result) : OkAnswers p s before [] := by
  intro j r h
  simp at h

theorem okAnswers_cons {c : ProgramCommand} {p : Program} {s : State} {before rs : List Result} {r : Result}
    (hfirst : CommandAnswers (c :: p) s before 0 (.ok r)) (hrest : OkAnswers p s (before ++ [r]) rs) :
    OkAnswers (c :: p) s before (r :: rs) := by
  intro j r' hr'
  cases j with
  | zero =>
    obtain rfl : r = r' := Option.some.inj hr'
    rw [List.take_zero, List.append_nil]
    exact hfirst
  | succ j =>
    have hlater := hrest j r' hr'
    rw [List.append_assoc] at hlater
    exact commandAnswers_cons hlater

/-- The state after an answered request, by its response (R32). -/
theorem outbox_of_lastResponse {r : Request} {s u : State} {resp : Response} (h : answerRequest r s = .next u)
    (hresp : u.lastResponse = some resp) : u.outbox = s.outbox ++ [.response resp] := by
  obtain ⟨-, -, -, p, houtbox⟩ := answerRequest_frame h
  have hp : p = resp := Option.some.inj ((lastResponse_of_outbox houtbox).symm.trans hresp)
  rw [houtbox, hp]

/-- One command in front of a run: it was answered `Ok` in `s`, and the run went on from there. -/
theorem runAnswers_cons {ci : Nat} {before : List Result} {c : ProgramCommand} {p : Program} {s u t : State}
    {r : Result} {out : RunEnd} (hfirst : CommandAnswers (c :: p) s before 0 (.ok r))
    (houtbox : u.outbox = s.outbox ++ [.response (.ok r)]) (htables : u.tables = s.tables)
    (hcapacities : u.capacities = s.capacities) (h : RunAnswers (ci + 1) (before ++ [r]) p u t out) :
    RunAnswers ci before (c :: p) s t out := by
  obtain ⟨rs, hrs, hend⟩ := h
  have hback : ∀ {results j resp}, CommandAnswers p u results j resp → CommandAnswers p s results j resp :=
    commandAnswers_congr htables.symm hcapacities.symm
  refine ⟨r :: rs, okAnswers_cons hfirst fun j r' hr' => hback (hrs j r' hr'), ?_⟩
  rcases hend with ⟨rfl, hlen, ht⟩ | ⟨code, rfl, hlen, ht, hfault⟩
  · exact .inl ⟨by simp, congrArg (· + 1) hlen, by simp [ht, houtbox, okDeliveries]⟩
  · refine .inr ⟨code, by simp; omega, Nat.succ_lt_succ hlen, by simp [ht, houtbox, okDeliveries], ?_⟩
    rw [List.append_cons]
    exact commandAnswers_cons (hback hfault)

/-- A run that ends reports every command it issued, by induction on the commands. -/
theorem runAnswers_of_runFrom {ci : Nat} {before : List Result} {p : Program} {s t : State} {out : RunEnd}
    (h : runFrom ci before p s = some (t, out)) : RunAnswers ci before p s t out := by
  induction p generalizing ci before s with
  | nil =>
    cases h
    exact ⟨[], okAnswers_nil [] _ before, .inl ⟨by simp, rfl, by simp [okDeliveries]⟩⟩
  | cons c p ih =>
    obtain ⟨ops, u, hops, hanswer, hend⟩ := runFrom_cons h
    rcases hend with ⟨r, hresp, hrest⟩ | ⟨code, hresp, rfl, rfl⟩
    · obtain ⟨-, htables, hcapacities, -⟩ := answerRequest_frame hanswer
      have hfirst : CommandAnswers (c :: p) s before 0 (.ok r) := ⟨c, ops, u, rfl, hops, hanswer, hresp⟩
      exact runAnswers_cons hfirst (outbox_of_lastResponse hanswer hresp) htables hcapacities (ih hrest)
    · refine ⟨[], okAnswers_nil _ s before, .inr ⟨code, rfl, Nat.succ_pos _, ?_, ?_⟩⟩
      · simp [okDeliveries, outbox_of_lastResponse hanswer hresp]
      · rw [List.append_nil]
        exact ⟨c, ops, t, rfl, hops, hanswer, hresp⟩

/-- Settles O48: the report of the whole program, with no command before it. -/
theorem runsFinishOrStopAtTheFirstFault : Obligations.RunsFinishOrStopAtTheFirstFault := by
  intro p s t out h
  obtain ⟨-, hrun⟩ := runProgram_eq_some h
  obtain ⟨rs, hrs, hend⟩ := runAnswers_of_runFrom hrun
  rcases hend with ⟨rfl, hlen, ht⟩ | ⟨code, rfl, hlen, ht, hfault⟩
  · refine ⟨?_, nofun⟩
    intro results hout
    obtain rfl : rs = results := RunEnd.finished.inj hout
    exact ⟨hlen, ht, hrs⟩
  · refine ⟨nofun, ?_⟩
    intro ci code' hout
    cases hout
    rw [Nat.zero_add]
    exact ⟨hlen, rs, rfl, ht, hrs, hfault⟩

/-! ### Programs the assembler accepts (R72) -/

/-- The type of a result (R64). -/
def typeOfResult : Result → ResultType
  | .bit _ => .bit
  | .bits _ => .bitVec
  | .pair _ _ => .pair
  | .stream _ => .stream
  | .bytes _ => .bytes

/-- What the assembler knows of results: that they exist, and their types. -/
def knownTypes (results : List Result) : List (Option ResultType) := results.map fun r => some (typeOfResult r)

theorem checked_map_eq_ok {α β : Type} {g : α → β} {x : Checked α} {b : β} (h : x.map g = .ok b) :
    ∃ a, g a = b := by
  cases x with
  | error e => cases h
  | ok a => exact ⟨a, Except.ok.inj h⟩

/-- A command's result has the type that R64 gives it. -/
theorem typeOfResult_instrAnswer {tables : CodeTables} {i : Instr} {r : Result} (h : instrAnswer tables i = .ok r) :
    typeOfResult r = resultType i.command := by
  cases i
  case add | mul => cases h; rfl
  all_goals
    obtain ⟨a, rfl⟩ := checked_map_eq_ok h
    rfl

/-- A request answered `Ok` has a legal word, and the result has the word's type. -/
theorem resultTypeOfWord_of_ok {q : Request} {s u : State} {r : Result} (h : answerRequest q s = .next u)
    (hresp : u.lastResponse = some (.ok r)) : resultTypeOfWord q.word = some (typeOfResult r) := by
  cases hd : decode q with
  | error e =>
    rw [answerRequest_error hd] at h
    cases h
    rw [lastResponse_of_outbox (raise_outbox s _)] at hresp
    cases hresp
  | ok i =>
    rw [answerRequest_ok hd] at h
    obtain ⟨-, rfl⟩ := (exec_eq_next_iff i s u).1 h
    rw [lastResponse_of_outbox (complete_outbox s i)] at hresp
    have hanswer : instrAnswer s.tables i = .ok r := by
      cases ha : instrAnswer s.tables i with
      | error e => rw [ha] at hresp; cases hresp
      | ok r' => rw [ha] at hresp; cases hresp; rfl
    obtain rfl := (decodeAndEncodeAgree q i).1 hd
    rw [typeOfResult_instrAnswer hanswer, resultTypeOfWord, encode, Laws.decodeWord_word]

theorem getElem?_knownTypes (results : List Result) (j : Nat) :
    (knownTypes results)[j]? = results[j]?.map fun r => some (typeOfResult r) := List.getElem?_map

/-- A result that fills a slot travels as an operand; only a pair does neither. -/
theorem exists_operandOfResult {r : Result} {t : OperandType} (h : slotOfResult (typeOfResult r) = some t) :
    ∃ o, operandOfResult r = some o := by
  cases r with
  | pair b e => cases h
  | _ => exact ⟨_, rfl⟩

theorem exists_result_of_slot {results : List Result} {j : Nat} {t : OperandType}
    (h : slotOfArg (knownTypes results) (.result j) = some t) :
    ∃ r, results[j]? = some r ∧ slotOfResult (typeOfResult r) = some t := by
  cases hr : results[j]? with
  | none => simp [slotOfArg, getElem?_knownTypes, hr] at h
  | some r => exact ⟨r, rfl, by simpa [slotOfArg, getElem?_knownTypes, hr] using h⟩

/-- A component reference that fills a slot names a DECODE result; `.syn` is checked as `.base` is. -/
theorem exists_pair_of_slot {results : List Result} {j : Nat} {t : OperandType}
    (h : slotOfArg (knownTypes results) (.base j) = some t) : ∃ b e, results[j]? = some (.pair b e) := by
  cases hr : results[j]? with
  | none => simp [slotOfArg, getElem?_knownTypes, hr] at h
  | some r =>
    cases r with
    | pair b e => exact ⟨b, e, rfl⟩
    | _ => simp [slotOfArg, getElem?_knownTypes, hr, typeOfResult] at h

/-- A reference that fills a slot has a value. -/
theorem exists_argValue_of_slot {results : List Result} {a : Arg} {t : OperandType}
    (h : slotOfArg (knownTypes results) a = some t) : ∃ o, argValue results a = some o := by
  cases a with
  | value o => cases h
  | result j =>
    obtain ⟨r, hr, hslot⟩ := exists_result_of_slot h
    obtain ⟨o, ho⟩ := exists_operandOfResult hslot
    exact ⟨o, by rw [argValue, hr, Option.bind_some, ho]⟩
  | base j =>
    obtain ⟨b, e, hpair⟩ := exists_pair_of_slot h
    exact ⟨.bits b, by simp only [argValue, hpair]⟩
  | syn j =>
    obtain ⟨b, e, hpair⟩ := exists_pair_of_slot (j := j) h
    exact ⟨.bits e, by simp only [argValue, hpair]⟩

theorem exists_argValue_of_isValue (results : List Result) {a : Arg} (h : a.isValue = true) :
    ∃ o, argValue results a = some o := by
  cases a with
  | value o => exact ⟨o, rfl⟩
  | _ => cases h

theorem argValues_cons {results : List Result} {a : Arg} {args : List Arg} {o : Operand} {os : List Operand}
    (ha : argValue results a = some o) (hargs : argValues results args = some os) :
    argValues results (a :: args) = some (o :: os) := by
  simp only [argValues, ha, hargs]

/-- Operands that the assembler accepts have values. -/
theorem exists_argValues_of_admitted {results : List Result} {slots : List OperandType} {args : List Arg}
    (h : argsAdmitted (knownTypes results) slots args = true) : ∃ os, argValues results args = some os := by
  induction args generalizing slots with
  | nil => exact ⟨[], rfl⟩
  | cons a args ih =>
    cases slots with
    | nil =>
      obtain ⟨ha, hargs⟩ := Bool.and_eq_true_iff.1 h
      obtain ⟨o, ho⟩ := exists_argValue_of_isValue results ha
      obtain ⟨os, hos⟩ := ih hargs
      exact ⟨o :: os, argValues_cons ho hos⟩
    | cons t slots =>
      obtain ⟨ha, hargs⟩ := Bool.and_eq_true_iff.1 h
      obtain ⟨os, hos⟩ := ih hargs
      rcases Bool.or_eq_true_iff.1 ha with hvalue | hslot
      · obtain ⟨o, ho⟩ := exists_argValue_of_isValue results hvalue
        exact ⟨o :: os, argValues_cons ho hos⟩
      · obtain ⟨o, ho⟩ := exists_argValue_of_slot (eq_of_beq hslot)
        exact ⟨o :: os, argValues_cons ho hos⟩

/-- An engine without capacity bounds answers every request. -/
theorem exists_answer_of_unbounded {s : State} (h : s.capacities = .unbounded) (q : Request) :
    ∃ u, answerRequest q s = .next u := by
  cases hd : decode q with
  | error e => exact ⟨_, answerRequest_error hd s⟩
  | ok i => exact ⟨_, (answerRequest_ok hd s).trans ((exec_eq_next_iff i s _).2 ⟨fits_unbounded h _, rfl⟩)⟩

/-- The rest of an accepted program runs, by induction on its commands: the types the assembler goes on with are those
of the results the run goes on with. -/
theorem exists_runFrom_of_admitted {ci : Nat} {results : List Result} {p : Program} {s : State}
    (hadmitted : admittedAfter (knownTypes results) p = true) (hcapacities : s.capacities = .unbounded) :
    ∃ t out, runFrom ci results p s = some (t, out) := by
  induction p generalizing ci results s with
  | nil => exact ⟨s, .finished results, rfl⟩
  | cons c p ih =>
    obtain ⟨hargs, hrest⟩ := Bool.and_eq_true_iff.1 hadmitted
    obtain ⟨ops, hops⟩ := exists_argValues_of_admitted hargs
    obtain ⟨u, hanswer⟩ := exists_answer_of_unbounded hcapacities ⟨c.word, ops⟩
    obtain ⟨-, -, hcap, resp, houtbox⟩ := answerRequest_frame hanswer
    have hresp : u.lastResponse = some resp := lastResponse_of_outbox houtbox
    cases resp with
    | fault code => exact ⟨u, .faulted ci code, by simp only [runFrom, hops, hanswer, hresp]⟩
    | ok r =>
      rw [resultTypeOfWord_of_ok hanswer hresp] at hrest
      have hknown : knownTypes (results ++ [r]) = knownTypes results ++ [some (typeOfResult r)] := List.map_append
      obtain ⟨t, out, hrun⟩ := ih (ci := ci + 1) (results := results ++ [r]) (hknown ▸ hrest)
        (hcap.trans hcapacities)
      exact ⟨t, out, by simp only [runFrom, hops, hanswer, hresp, hrun]⟩

/-- Settles O49: a program starts with no results, and the assembler with no types. -/
theorem admittedProgramsRun : Obligations.AdmittedProgramsRun := by
  intro p s hadmitted hcapacities
  rw [runProgram, if_pos hadmitted]
  exact exists_runFrom_of_admitted (results := []) hadmitted hcapacities

end Sys2Proof.Machine
end

section
/-! GF(2) operations (spec/40_gf2_engine.md R80 to R86). First the response of a command as its answer;
then elements and sums of bit vectors, the two products as sums (R84, R86), and the laws of R85. -/

namespace Sys2Proof.Machine

/-! ### The response of a command -/

/-- A command other than COMPRESS whose operands fit gives its answer as the response, and does nothing else (R24). -/
theorem exec_eq_afterResponse {i : Instr} {s : State} (hcompress : isCompress i = false)
    (hfit : Fits s (instrLoad s.tables i)) :
    exec i s = .next (s.afterResponse (responseOf (instrAnswer s.tables i))) := by
  rw [exec_eq_within, within_of_fits hfit, State.complete, hcompress, if_neg Bool.false_ne_true,
    finish_eq_afterResponse]

theorem exec_vmm {v : Bits} {m : Matrix} {s : State} (hfit : Fits s (linearLoad v m)) :
    exec (.vmm v m) s = .next (s.afterResponse (responseOf ((vmm v m).map .bits))) :=
  exec_eq_afterResponse (i := .vmm v m) rfl hfit

theorem exec_mvm {v : Bits} {m : Matrix} {s : State} (hfit : Fits s (linearLoad v m)) :
    exec (.mvm m v) s = .next (s.afterResponse (responseOf ((mvm m v).map .bits))) :=
  exec_eq_afterResponse (i := .mvm m v) rfl hfit

theorem fits_nil (s : State) : Fits s [] := (exceeded_eq_none s []).1 rfl

/-- Settles O18: both commands answer without a check. -/
theorem addAndMulComplete : Obligations.AddAndMulComplete := fun a b s =>
  ⟨exec_eq_afterResponse (i := .add a b) rfl (fits_nil s), exec_eq_afterResponse (i := .mul a b) rfl (fits_nil s)⟩

/-! ### Shape mismatches (R80) -/

/-- The three ways an operand pair has the wrong shape, for a vector that should have length n. -/
theorem shape_mismatch_iff (v : Bits) (m : Matrix) (n : Nat) :
    (m.rows.length ≠ m.r ∨ (∃ row ∈ m.rows, row.length ≠ m.c) ∨ v.length ≠ n) ↔
      ¬ (matrixOk m = true ∧ v.length = n) := by
  simp only [matrixOk_iff, not_and_or, not_forall, exists_prop, or_assoc]

section Mismatch
variable {v : Bits} {m : Matrix}

/-- Without the shapes that a result needs, VMM raises the one error it has. -/
theorem vmm_of_mismatch (h : ¬ (matrixOk m = true ∧ v.length = m.r)) : vmm v m = .error .dimensionMismatch := by
  cases hv : vmm v m with
  | ok out =>
    obtain ⟨hm, hl, -⟩ := (vmm_eq_ok_iff v m out).1 hv
    exact absurd ⟨hm, hl⟩ h
  | error e => rw [vmm_eq_error hv]

/-- Without the shapes that a result needs, MVM raises the one error it has. -/
theorem mvm_of_mismatch (h : ¬ (matrixOk m = true ∧ v.length = m.c)) : mvm m v = .error .dimensionMismatch := by
  cases hv : mvm m v with
  | ok out =>
    obtain ⟨hm, hl, -⟩ := (mvm_eq_ok_iff m v out).1 hv
    exact absurd ⟨hm, hl⟩ h
  | error e => rw [mvm_eq_error hv]

end Mismatch

/-- Settles O21: a mismatch leaves both commands only their error. -/
theorem shapeMismatchRaisesDimensionMismatch : Obligations.ShapeMismatchRaisesDimensionMismatch := by
  intro v m s hfit
  rw [shape_mismatch_iff, shape_mismatch_iff]
  refine ⟨fun h => ?vmm, fun h => ?mvm⟩
  case vmm => rw [exec_vmm hfit, vmm_of_mismatch h]; rfl
  case mvm => rw [exec_mvm hfit, mvm_of_mismatch h]; rfl

/-! ### Elements of vectors -/

theorem getElem?_eq_bitAt {v : Bits} {j : Nat} (h : j < v.length) : v[j]? = some (bitAt v j) := by
  simp [bitAt, h]

theorem bitAt_of_le {v : Bits} {j : Nat} (h : v.length ≤ j) : bitAt v j = false := by simp [bitAt, h]

@[simp] theorem bitAt_zeros (n j : Nat) : bitAt (zeros n) j = false := by
  simp only [bitAt, zeros, List.getD_eq_getElem?_getD, List.getElem?_replicate]
  split <;> rfl

/-- Two vectors of one length are equal when their elements are. -/
theorem bits_ext {v w : Bits} (hl : v.length = w.length) (h : ∀ j, bitAt v j = bitAt w j) : v = w :=
  List.ext_getElem hl fun j hv hw => by simpa [bitAt, hv, hw] using h j

/-- `v ⊕ w` is taken element by element (R9). -/
theorem bitAt_xorBits {v w : Bits} (h : v.length = w.length) (j : Nat) :
    bitAt (xorBits v w) j = xor (bitAt v j) (bitAt w j) := by
  by_cases hj : j < w.length
  · simp [bitAt, xorBits, h, hj]
  · rw [bitAt_of_le (by simp; omega), bitAt_of_le (by omega), bitAt_of_le (by omega), Bool.xor_false]

theorem bitAt_col (m : Matrix) (j i : Nat) : bitAt (col m j) i = bitAt (m.rows.getD i []) j := by
  simp only [bitAt, col, List.getD_eq_getElem?_getD, List.getElem?_map]
  cases m.rows[i]? <;> simp

/-! ### Dot products -/

@[simp] theorem dot_cons (a b : Bit) (v w : Bits) : dot (a :: v) (b :: w) = xor (a && b) (dot v w) := rfl

@[simp] theorem dot_nil_left (w : Bits) : dot [] w = false := rfl

@[simp] theorem dot_nil_right (v : Bits) : dot v [] = false := by simp [dot, xorSum]

theorem dot_comm (v w : Bits) : dot v w = dot w v := by
  rw [dot, List.zipWith_comm_of_comm fun a b => Bool.and_comm a b, dot]

/-- A dot product as the sum over positions that R84 and R86 write. -/
theorem dot_eq_sum {v w : Bits} {n : Nat} (hv : v.length = n) (hw : w.length = n) :
    dot v w = xorSum ((List.range n).map fun i => bitAt v i && bitAt w i) := by
  have hterms : List.zipWith (· && ·) v w = (List.range n).map fun i => bitAt v i && bitAt w i :=
    List.ext_getElem (by simp [hv, hw]) fun i hi _ => by
      rw [List.length_zipWith, hv, hw, Nat.min_self] at hi
      simp [bitAt, hv, hw, hi]
  rw [dot, hterms]

/-- The dot product is linear in its right operand. -/
theorem dot_xorBits_right (u : Bits) {v w : Bits} (h : v.length = w.length) :
    dot u (xorBits v w) = xor (dot u v) (dot u w) := by
  induction u generalizing v w with
  | nil => rfl
  | cons a u ih =>
    match v, w, h with
    | [], [], _ => rfl
    | b :: v, c :: w, h =>
      calc dot (a :: u) (xorBits (b :: v) (c :: w))
          = xor (a && xor b c) (dot u (xorBits v w)) := rfl
        _ = xor (xor (a && b) (a && c)) (xor (dot u v) (dot u w)) := by
          rw [ih (Nat.succ.inj h), Bool.and_xor_distrib_left]
        _ = xor (dot (a :: u) (b :: v)) (dot (a :: u) (c :: w)) := by
          simp only [dot_cons, Bool.xor_assoc, Bool.xor_left_comm (a && c)]

theorem dot_xorBits_left {v w : Bits} (h : v.length = w.length) (u : Bits) :
    dot (xorBits v w) u = xor (dot v u) (dot w u) := by
  rw [dot_comm, dot_xorBits_right u h, dot_comm u v, dot_comm u w]

/-! ### The elements of the two products -/

/-- The sum of selected rows, at one column: the dot product of the selector with that column (R86). -/
theorem bitAt_xorSelected (v : Bits) {rows : List Bits} {out : Bits} (h : ∀ row ∈ rows, row.length = out.length)
    (j : Nat) : bitAt (xorSelected v rows out) j = xor (bitAt out j) (dot v (rows.map fun row => bitAt row j)) := by
  induction v generalizing rows out with
  | nil => simp [xorSelected]
  | cons b v ih =>
    cases rows with
    | nil => simp [xorSelected]
    | cons row rows =>
      obtain ⟨hrow, hrows⟩ := List.forall_mem_cons.1 h
      rw [xorSelected, List.map_cons, dot_cons]
      cases b with
      | false => simpa using ih hrows
      | true =>
        have hlen : (xorBits out row).length = out.length := by simp [hrow]
        rw [if_pos rfl, ih (fun r hr => (hrows r hr).trans hlen.symm), bitAt_xorBits hrow.symm, Bool.true_and,
          Bool.xor_assoc]

/-- Element j of VMM is the dot product of the vector with column j (R86). -/
theorem bitAt_vmm {v out : Bits} {m : Matrix} (h : vmm v m = .ok out) (j : Nat) :
    bitAt out j = dot v (col m j) := by
  obtain ⟨hm, -, rfl⟩ := (vmm_eq_ok_iff v m out).1 h
  obtain ⟨-, hrows⟩ := (matrixOk_iff m).1 hm
  rw [bitAt_xorSelected v (by simpa using hrows), bitAt_zeros, Bool.false_xor, col]

/-- Element i of MVM is the dot product of row i with the vector (R84). -/
theorem bitAt_mvm {v out : Bits} {m : Matrix} (h : mvm m v = .ok out) (i : Nat) :
    bitAt out i = dot (m.rows.getD i []) v := by
  obtain ⟨-, -, rfl⟩ := (mvm_eq_ok_iff m v out).1 h
  simp only [bitAt, List.getD_eq_getElem?_getD, List.getElem?_map]
  cases m.rows[i]? <;> simp

/-- Settles O19: each column holds one bit of every row, so its dot product is a sum over the rows. -/
theorem vmmAnswersColumnSums : Obligations.VmmAnswersColumnSums := by
  intro v m s hcount hrows hv hfit
  have hok := (vmm_eq_ok_iff v m _).2 ⟨(matrixOk_iff m).2 ⟨hcount, hrows⟩, hv, rfl⟩
  refine ⟨_, by rw [exec_vmm hfit, hok]; rfl, vmm_length hok, fun j hj => ?_⟩
  rw [getElem?_eq_bitAt (by rwa [vmm_length hok]), bitAt_vmm hok,
    dot_eq_sum hv ((length_col m j).trans hcount)]
  simp only [bitAt_col]

/-- Settles O20: each row has the vector's length, so its dot product is a sum over the columns. -/
theorem mvmAnswersRowSums : Obligations.MvmAnswersRowSums := by
  intro m v s hcount hrows hv hfit
  have hok := (mvm_eq_ok_iff m v _).2 ⟨(matrixOk_iff m).2 ⟨hcount, hrows⟩, hv, rfl⟩
  refine ⟨_, by rw [exec_mvm hfit, hok]; rfl, mvm_length hok, fun i hi => ?_⟩
  have hrow : (m.rows.getD i []).length = m.c := by
    rw [List.getD_eq_getElem _ _ (by rwa [hcount])]
    exact hrows _ (List.getElem_mem _)
  rw [getElem?_eq_bitAt (by rwa [mvm_length hok]), bitAt_mvm hok, dot_eq_sum hrow hv]

/-! ### The laws of R85 -/

/-- VMM is linear in its vector: each element is a dot product, which is. -/
theorem vmm_xorBits {m : Matrix} {v w x y : Bits} (hlen : v.length = w.length) (hx : vmm v m = .ok x)
    (hy : vmm w m = .ok y) : vmm (xorBits v w) m = .ok (xorBits x y) := by
  obtain ⟨hm, hv, -⟩ := (vmm_eq_ok_iff v m x).1 hx
  have hxy : x.length = y.length := (vmm_length hx).trans (vmm_length hy).symm
  obtain ⟨out, hok⟩ : ∃ out, vmm (xorBits v w) m = .ok out :=
    ⟨_, (vmm_eq_ok_iff (xorBits v w) m _).2 ⟨hm, by simp [← hlen, hv], rfl⟩⟩
  have hout : out.length = (xorBits x y).length := by
    rw [vmm_length hok, length_xorBits, ← hxy, Nat.min_self, vmm_length hx]
  rw [hok, bits_ext hout fun j => ?_]
  rw [bitAt_vmm hok, dot_xorBits_left hlen, bitAt_xorBits hxy, bitAt_vmm hx, bitAt_vmm hy]

/-- MVM is linear in its vector: each element is a dot product, which is. -/
theorem mvm_xorBits {m : Matrix} {v w x y : Bits} (hlen : v.length = w.length) (hx : mvm m v = .ok x)
    (hy : mvm m w = .ok y) : mvm m (xorBits v w) = .ok (xorBits x y) := by
  obtain ⟨hm, hv, -⟩ := (mvm_eq_ok_iff m v x).1 hx
  have hxy : x.length = y.length := (mvm_length hx).trans (mvm_length hy).symm
  obtain ⟨out, hok⟩ : ∃ out, mvm m (xorBits v w) = .ok out :=
    ⟨_, (mvm_eq_ok_iff m (xorBits v w) _).2 ⟨hm, by simp [← hlen, hv], rfl⟩⟩
  have hout : out.length = (xorBits x y).length := by
    rw [mvm_length hok, length_xorBits, ← hxy, Nat.min_self, mvm_length hx]
  rw [hok, bits_ext hout fun i => ?_]
  rw [bitAt_mvm hok, dot_xorBits_right _ hlen, bitAt_xorBits hxy, bitAt_mvm hx, bitAt_mvm hy]

/-- Settles O22: XOR and AND are the field operations of GF(2), and both products are sums of dot products. -/
theorem gfLawsAndLinearity : Obligations.GfLawsAndLinearity := by
  refine ⟨fun a b c => ?scalars, fun m v w x y => vmm_xorBits, fun m v w x y => mvm_xorBits⟩
  case scalars =>
    exact ⟨Bool.xor_comm a b, Bool.xor_assoc a b c, Bool.xor_false a, Bool.xor_self a, Bool.and_comm a b,
      Bool.and_assoc a b c, Bool.and_true a, Bool.and_false a, Bool.and_xor_distrib_left a b c⟩

end Sys2Proof.Machine
end

section
/-! Block code (spec/41_block_code.md R100 to R113): the code tables. First the construction of R103 and the five
conditions of R105, element by element; then sums of rows, flipped bits and unit vectors under the two products. -/

namespace Sys2Proof.Machine

/-! ### The default tables (R103) -/

/-- Settles O23. -/
theorem defaultTablesComeFromTheConstruction : Obligations.DefaultTablesComeFromTheConstruction :=
  ⟨by decide, by decide⟩

/-! ### The five conditions (R105) -/

/-- V1, with well-formedness of the two matrices written out. -/
theorem shapesOk_iff_rows (f : Family) (t : CodeTable) :
    shapesOk f t = true ↔ t.n = blockLen f ∧ t.k = messageLen f ∧
      (t.G.rows.length = messageLen f ∧ t.G.r = messageLen f ∧ t.G.c = blockLen f ∧
        ∀ row ∈ t.G.rows, row.length = blockLen f) ∧
      (t.H.rows.length = syndromeLen f ∧ t.H.r = syndromeLen f ∧ t.H.c = blockLen f ∧
        ∀ row ∈ t.H.rows, row.length = blockLen f) := by
  rw [shapesOk_iff, matrixOk_iff, matrixOk_iff]
  refine and_congr_right fun _ => and_congr_right fun _ => ⟨?_, ?_⟩
  · rintro ⟨⟨hG, hGrows⟩, hGr, hGc, ⟨hH, hHrows⟩, hHr, hHc⟩
    exact ⟨⟨hG.trans hGr, hGr, hGc, hGc ▸ hGrows⟩, hH.trans hHr, hHr, hHc, hHc ▸ hHrows⟩
  · rintro ⟨⟨hG, hGr, hGc, hGrows⟩, hH, hHr, hHc, hHrows⟩
    exact ⟨⟨hG.trans hGr.symm, hGc ▸ hGrows⟩, hGr, hGc, ⟨hH.trans hHr.symm, hHc ▸ hHrows⟩, hHr, hHc⟩

/-- V2, column by column. -/
theorem columnsOk_iff_col {f : Family} {t : CodeTable} (hc : t.H.c = blockLen f) :
    columnsOk f t = true ↔ ∀ i, i < blockLen f → col t.H i ≠ zeros (syndromeLen f) ∧
      ∀ j, j < blockLen f → col t.H i = col t.H j → i = j := by
  rw [columnsOk_iff, columns, hc, List.nodup_map_iff_inj_on List.nodup_range]
  simp only [List.mem_map, List.mem_range, not_exists, not_and]
  constructor
  · rintro ⟨hinj, hzero⟩ i hi
    exact ⟨hzero i hi, fun j hj => hinj i hi j hj⟩
  · intro h
    exact ⟨fun i hi j hj => (h i hi).2 j hj, fun i hi => (h i hi).1⟩

/-- V3, row by row. -/
theorem orthogonalOk_iff (f : Family) (t : CodeTable) :
    orthogonalOk f t = true ↔ ∀ row ∈ t.G.rows, mvm t.H row = .ok (zeros (syndromeLen f)) := by
  simp [orthogonalOk]

/-- V4, as the injectivity of ENCODE at zero. -/
theorem fullRankOk_iff {f : Family} {t : CodeTable} (hG : matrixOk t.G = true) (hr : t.G.r = messageLen f)
    (hc : t.G.c = blockLen f) :
    fullRankOk f t = true ↔ ∀ u : Bits, u.length = messageLen f → vmm u t.G = .ok (zeros (blockLen f)) →
      u = zeros (messageLen f) := by
  simp only [fullRankOk, List.all_eq_true, mem_allBits, Bool.or_eq_true, beq_iff_eq, bne_iff_ne, vmm_eq_ok_iff, hG, hr,
    hc, true_and]
  refine forall₂_congr fun u hu => ?_
  rw [or_iff_not_imp_right, ne_eq, not_not, and_iff_right hu, eq_comm (b := zeros (blockLen f))]

/-- The j-th data position of a policy (R100). -/
def dataPosition (f : Family) (p : Policy) (j : Nat) : Nat :=
  match p with
  | .leading => j
  | .trailing => syndromeLen f + j

theorem dataPositions_eq_map (f : Family) (p : Policy) :
    dataPositions f p = (List.range (messageLen f)).map (dataPosition f p) := by
  cases p with
  | leading => exact (List.map_id _).symm
  | trailing => exact List.map_congr_left fun i _ => Nat.add_comm i _

theorem bitAt_map_range (g : Nat → Bit) {n j : Nat} (h : j < n) : bitAt ((List.range n).map g) j = g j := by
  simp [bitAt, h]

/-- Vectors read off by position are equal when every position agrees. -/
theorem map_range_eq_iff {n : Nat} {g : Nat → Bit} {v : Bits} (hv : v.length = n) :
    (List.range n).map g = v ↔ ∀ j, j < n → g j = bitAt v j := by
  constructor
  · rintro rfl j hj
    rw [bitAt_map_range g hj]
  · intro h
    refine bits_ext (by simp [hv]) fun j => ?_
    by_cases hj : j < n
    · rw [bitAt_map_range g hj, h j hj]
    · rw [bitAt_of_le (by simpa using hj), bitAt_of_le (by omega)]

theorem bitAt_unitBits {n j : Nat} (i : Nat) (h : j < n) : bitAt (unitBits n i) j = (i == j) := by
  rw [unitBits, bitAt_map_range _ h, Bool.beq_comm]

/-- V5, element by element. -/
theorem identityOk_iff (f : Family) (t : CodeTable) :
    identityOk f t = true ↔ ∀ i j, i < messageLen f → j < messageLen f →
      bitAt (t.G.rows.getD i []) (dataPosition f t.policy j) = (i == j) := by
  have hrow : ∀ i, ((dataPositions f t.policy).map fun p => bitAt (t.G.rows.getD i []) p) = unitBits (messageLen f) i ↔
      ∀ j, j < messageLen f → bitAt (t.G.rows.getD i []) (dataPosition f t.policy j) = (i == j) := by
    intro i
    rw [dataPositions_eq_map, List.map_map, map_range_eq_iff (length_unitBits _ i)]
    exact forall₂_congr fun j hj => by rw [bitAt_unitBits i hj]; rfl
  simp only [identityOk, List.all_eq_true, List.mem_range, beq_iff_eq, hrow]
  exact ⟨fun h i j hi hj => h i hi j hj, fun h i hi j hj => h i j hi hj⟩

/-- Settles O24: the conditions one by one, V2 to V5 where V1 gives the shapes that they read. -/
theorem validityIsTheFiveConditions : Obligations.ValidityIsTheFiveConditions := by
  intro f t
  rw [tableValid_iff, ← shapesOk_iff_rows]
  refine and_congr_right fun hshapes => ?_
  obtain ⟨-, -, hG, hGr, hGc, -, -, hHc⟩ := (shapesOk_iff f t).1 hshapes
  exact and_congr (columnsOk_iff_col hHc) (and_congr (orthogonalOk_iff f t)
    (and_congr (fullRankOk_iff hG hGr hGc) (identityOk_iff f t)))

/-! ### Sums, flips and unit vectors under the two products -/

/-- A vector is its own inverse (R85). -/
@[simp] theorem xorBits_self (v : Bits) : xorBits v v = zeros v.length :=
  bits_ext (by simp) fun j => by rw [bitAt_xorBits rfl, Bool.xor_self, bitAt_zeros]

/-- Adding zeros changes nothing. -/
theorem zeros_xorBits {v : Bits} {n : Nat} (hv : v.length = n) : xorBits (zeros n) v = v :=
  bits_ext (by simp [hv]) fun j => by rw [bitAt_xorBits (by simp [hv]), bitAt_zeros, Bool.false_xor]

@[simp] theorem dot_zeros_right (u : Bits) (n : Nat) : dot u (zeros n) = false := by
  have h := dot_xorBits_right u (rfl : (zeros n).length = (zeros n).length)
  rwa [xorBits_self, length_zeros, Bool.xor_self] at h

/-- A flipped bit adds that element of the other operand. -/
theorem dot_flipBit (u : Bits) {v : Bits} {j : Nat} (h : j < v.length) :
    dot u (flipBit v j) = xor (dot u v) (bitAt u j) := by
  induction u generalizing v j with
  | nil => simp [bitAt]
  | cons a u ih =>
    cases v with
    | nil => simp at h
    | cons b v =>
      cases j with
      | zero => cases a <;> simp [flipBit, Bool.xor_comm]
      | succ j => simp [flipBit, ih (Nat.lt_of_succ_lt_succ h)]

/-- The unit vector is the zero vector with one bit flipped. -/
theorem unitBits_eq_flipBit {n j : Nat} (h : j < n) : unitBits n j = flipBit (zeros n) j := by
  refine (map_range_eq_iff (by simp)).2 fun i hi => ?_
  by_cases hij : i = j
  · subst hij; simp [bitAt_flipBit_self, h]
  · simp [bitAt_flipBit_ne _ hij, hij]

/-- The product with a unit vector reads one element. -/
theorem dot_unitBits (u : Bits) {n j : Nat} (h : j < n) : dot u (unitBits n j) = bitAt u j := by
  rw [unitBits_eq_flipBit h, dot_flipBit u (by simpa using h), dot_zeros_right, Bool.false_xor]

/-- A flipped bit adds that column to the syndrome (R104). -/
theorem mvm_flipBit {m : Matrix} {v x : Bits} {j : Nat} (hx : mvm m v = .ok x) (hj : j < m.c) :
    mvm m (flipBit v j) = .ok (xorBits x (col m j)) := by
  obtain ⟨hm, hv, -⟩ := (mvm_eq_ok_iff m v x).1 hx
  have hlen : x.length = (col m j).length := by
    rw [mvm_length hx, length_col, ((matrixOk_iff m).1 hm).1]
  obtain ⟨out, hout⟩ : ∃ out, mvm m (flipBit v j) = .ok out :=
    ⟨_, (mvm_eq_ok_iff m _ _).2 ⟨hm, by rw [length_flipBit, hv], rfl⟩⟩
  have houtLen : out.length = (xorBits x (col m j)).length := by
    rw [mvm_length hout, length_xorBits, ← hlen, Nat.min_self, mvm_length hx]
  rw [hout, bits_ext houtLen fun i => ?_]
  rw [bitAt_mvm hout, dot_flipBit _ (hv ▸ hj), bitAt_xorBits hlen, bitAt_mvm hx, bitAt_col]

/-- A sum of vectors that all have the zero syndrome has it too. -/
theorem mvm_xorSelected_zeros {m : Matrix} {n : Nat} (v : Bits) {rows : List Bits} {out : Bits}
    (hrows : ∀ row ∈ rows, mvm m row = .ok (zeros n)) (hout : mvm m out = .ok (zeros n)) :
    mvm m (xorSelected v rows out) = .ok (zeros n) := by
  induction v generalizing rows out with
  | nil => simpa [xorSelected] using hout
  | cons b v ih =>
    cases rows with
    | nil => simpa [xorSelected] using hout
    | cons row rows =>
      obtain ⟨hrow, hrows⟩ := List.forall_mem_cons.1 hrows
      refine ih hrows ?_
      cases b with
      | false => exact hout
      | true =>
        obtain ⟨-, hl, -⟩ := (mvm_eq_ok_iff _ _ _).1 hout
        obtain ⟨-, hl', -⟩ := (mvm_eq_ok_iff _ _ _).1 hrow
        simpa using mvm_xorBits (hl.trans hl'.symm) hout hrow

/-- The zero vector has the zero syndrome. -/
theorem mvm_zeros {m : Matrix} (hm : matrixOk m = true) : mvm m (zeros m.c) = .ok (zeros m.r) := by
  obtain ⟨out, hout⟩ : ∃ out, mvm m (zeros m.c) = .ok out :=
    ⟨_, (mvm_eq_ok_iff m _ _).2 ⟨hm, length_zeros _, rfl⟩⟩
  have houtLen : out.length = (zeros m.r).length := (mvm_length hout).trans (length_zeros _).symm
  rw [hout, bits_ext houtLen fun i => ?_]
  rw [bitAt_mvm hout, dot_zeros_right, bitAt_zeros]

end Sys2Proof.Machine
end

section
/-! Block code (spec/41_block_code.md R104 to R113): the three operations over a valid table, and the commands that
answer them. DECODE maps the n-bit words onto the pairs of a base and a syndrome; there are as many of each, so it is
one to one, and the null space of H (R109 P3) and the GDD inversion (R113) follow from that. -/

namespace Sys2Proof.Machine

/-! ### The commands -/

/-- A command that computes a value answers it. -/
theorem finish_map_ok {α : Type} {a : Checked α} {x : α} (h : a = .ok x) (make : α → Result) (s : State) :
    s.finish (a.map make) = s.afterOk (make x) := by
  rw [h]; exact returnOk_eq_afterOk s _

/-- A command that raises an error answers its code. -/
theorem finish_map_error {α : Type} {a : Checked α} {e : ErrorKind} (h : a = .error e) (make : α → Result)
    (s : State) : s.finish (a.map make) = s.afterFault (errorCode e) := by
  rw [h]; exact raise_eq_afterFault s _

theorem exec_encodeOf (f : Family) (u : Bits) (s : State) :
    exec (encodeOf f u) s = .next (s.finish ((encodeBlock s.tables (some f) u).map .bits)) := by
  cases f <;> rfl

theorem exec_decodeOf (f : Family) (w : Bits) (s : State) :
    exec (decodeOf f w) s =
      .next (s.finish ((decodeBlock s.tables (some f) w).map fun out => .pair out.1 out.2)) := by
  cases f <;> rfl

section Commands
variable {f : Family} {s : State}

theorem exec_encodeOf_ok {u c : Bits} (h : encodeBlock s.tables (some f) u = .ok c) :
    exec (encodeOf f u) s = .next (s.afterOk (.bits c)) := by
  rw [exec_encodeOf, finish_map_ok h]

theorem exec_decodeOf_ok {w b e : Bits} (h : decodeBlock s.tables (some f) w = .ok (b, e)) :
    exec (decodeOf f w) s = .next (s.afterOk (.pair b e)) := by
  rw [exec_decodeOf, finish_map_ok h]

theorem exec_decodeOf_error {w : Bits} {k : ErrorKind} (h : decodeBlock s.tables (some f) w = .error k) :
    exec (decodeOf f w) s = .next (s.afterFault (errorCode k)) := by
  rw [exec_decodeOf, finish_map_error h]

theorem exec_correctOf_ok {w e c : Bits} (h : correctBlock s.tables (some f) w e = .ok c) :
    exec (correctOf f w e) s = .next (s.afterOk (.bits c)) := by
  rw [exec_correctOf, finish_map_ok h]

theorem exec_correctOf_error {w e : Bits} {k : ErrorKind} (h : correctBlock s.tables (some f) w e = .error k) :
    exec (correctOf f w e) s = .next (s.afterFault (errorCode k)) := by
  rw [exec_correctOf, finish_map_error h]

/-- ENCODE with AUTO is ENCODE of the family whose message length fits (R106). -/
theorem exec_encode_auto {u : Bits} (h : u.length = messageLen f) (s : State) :
    exec (.encode u) s = exec (encodeOf f u) s := by
  calc exec (.encode u) s
      = .next (s.finish ((encodeBlock s.tables none u).map .bits)) := rfl
    _ = exec (encodeOf f u) s := by rw [encodeBlock_auto h, ← encodeBlock_explicit h, exec_encodeOf]

/-- DECODE with AUTO is DECODE of the family whose block length fits (R106). -/
theorem exec_decode_auto {w : Bits} (h : w.length = blockLen f) (s : State) :
    exec (.decode w) s = exec (decodeOf f w) s := by
  calc exec (.decode w) s
      = .next (s.finish ((decodeBlock s.tables none w).map fun out => .pair out.1 out.2)) := rfl
    _ = exec (decodeOf f w) s := by rw [decodeBlock_auto h, exec_decodeOf]

/-- CORRECT with AUTO is CORRECT of the family whose block length fits, whatever the syndrome (R106). -/
theorem exec_correct_auto {w : Bits} (h : w.length = blockLen f) (e : Bits) (s : State) :
    exec (.correct w e) s = exec (correctOf f w e) s := by
  calc exec (.correct w e) s
      = .next (s.finish ((correctBlock s.tables none w e).map .bits)) := rfl
    _ = exec (correctOf f w e) s := by rw [correctBlock_auto h, exec_correctOf]

end Commands

/-- Settles O25. -/
theorem autoSelectsByLength : Obligations.AutoSelectsByLength := fun _ s _ e =>
  ⟨fun h => exec_encode_auto h s, fun h => exec_decode_auto h s, fun h => exec_correct_auto h e s⟩

/-! ### Wrong lengths (R106, R110 to R112) -/

section WrongLengths
variable {tables : CodeTables} {sel : Option Family} {k : ErrorKind}

/-- A failing selection is what each operation raises. -/
theorem encodeBlock_of_select_error {u : Bits} (h : select sel u.length messageLen = .error k) :
    encodeBlock tables sel u = .error k := by
  rw [encodeBlock, h]; rfl

theorem decodeBlock_of_select_error {w : Bits} (h : select sel w.length blockLen = .error k) :
    decodeBlock tables sel w = .error k := by
  rw [decodeBlock, h]; rfl

theorem correctBlock_of_select_error {w : Bits} (h : select sel w.length blockLen = .error k) (e : Bits) :
    correctBlock tables sel w e = .error k := by
  rw [correctBlock, h]; rfl

/-- A syndrome of the wrong length is refused once the codeword's length is right (R112). -/
theorem correctBlock_of_syndrome_length {f : Family} {w e : Bits} (hw : w.length = blockLen f)
    (he : e.length ≠ syndromeLen f) : correctBlock tables (some f) w e = .error .invalidLength := by
  rw [correctBlock, hw, select_explicit]
  simp only [bind, Except.bind, if_pos he]
  rfl

end WrongLengths

/-- Settles O26: the selection fails with the code, or it succeeds and the syndrome's length fails. -/
theorem wrongLengthsRaise : Obligations.WrongLengthsRaise := by
  intro s f x e
  have hauto : ∀ {dim : Family → Nat}, x.length ≠ dim .sevenFour → x.length ≠ dim .fifteenEleven →
      select none x.length dim = .error .unsupportedCodeLength := fun h74 h1511 =>
    select_auto_wrong fun f => by cases f; exacts [h74, h1511]
  refine ⟨fun hx => ?encode, fun hx => ?codeword, fun hx he => ?syndrome, fun h74 h1511 => ?autoEncode,
    fun h74 h1511 => ?autoCodeword⟩
  case encode =>
    rw [exec_encodeOf, finish_map_error (encodeBlock_of_select_error (select_explicit_wrong hx))]; rfl
  case codeword =>
    have hselect := select_explicit_wrong hx
    exact ⟨exec_decodeOf_error (decodeBlock_of_select_error hselect),
      exec_correctOf_error (correctBlock_of_select_error hselect e)⟩
  case syndrome =>
    rw [exec_correct_auto hx]
    exact ⟨exec_correctOf_error (correctBlock_of_syndrome_length hx he),
      exec_correctOf_error (correctBlock_of_syndrome_length hx he)⟩
  case autoEncode =>
    exact congrArg _ (finish_map_error (encodeBlock_of_select_error (hauto (dim := messageLen) h74 h1511)) _ s)
  case autoCodeword =>
    have hselect := hauto (dim := blockLen) h74 h1511
    exact ⟨congrArg _ (finish_map_error (decodeBlock_of_select_error hselect) _ s),
      congrArg _ (finish_map_error (correctBlock_of_select_error hselect e) _ s)⟩

/-! ### The operations over a valid table -/

section Valid
variable {tables : CodeTables} {f : Family}

/-- `data(f, c)` element by element (R100). -/
theorem dataBits_eq_iff {u : Bits} (hu : u.length = messageLen f) (c : Bits) :
    dataBits tables f c = u ↔
      ∀ j, j < messageLen f → bitAt c (dataPosition f (tables.of f).policy j) = bitAt u j := by
  rw [dataBits, dataPositions_eq_map, List.map_map]
  exact map_range_eq_iff hu

/-- Over a valid table a k-bit message encodes to n bits with the zero syndrome, and with the message at the data
positions (R110). -/
theorem exists_encodeBlock_codeword (h : tableValid f (tables.of f) = true) {u : Bits} (hu : u.length = messageLen f) :
    ∃ c, encodeBlock tables (some f) u = .ok c ∧ vmm u (tables.of f).G = .ok c ∧ c.length = blockLen f ∧
      syndrome tables f c = .ok (zeros (syndromeLen f)) ∧ dataBits tables f c = u := by
  obtain ⟨hshapes, -, horthogonal, -, hidentity⟩ := (tableValid_iff f _).1 h
  obtain ⟨-, -, hG, hGr, hGc, hH, hHr, hHc⟩ := (shapesOk_iff f _).1 hshapes
  obtain ⟨c, hc⟩ := exists_encodeBlock_ok h hu
  have hvmm : vmm u (tables.of f).G = .ok c := by rw [← hc, encodeBlock_explicit hu]
  refine ⟨c, hc, hvmm, (vmm_length hvmm).trans hGc, ?zeroSyndrome, ?message⟩
  case zeroSyndrome =>
    obtain ⟨-, -, rfl⟩ := (vmm_eq_ok_iff _ _ _).1 hvmm
    have hzeros : mvm (tables.of f).H (zeros (tables.of f).G.c) = .ok (zeros (syndromeLen f)) := by
      rw [hGc, ← hHc, ← hHr]; exact mvm_zeros hH
    exact mvm_xorSelected_zeros u ((orthogonalOk_iff f _).1 horthogonal) hzeros
  case message =>
    refine (dataBits_eq_iff hu c).2 fun j hj => ?_
    have hcol : col (tables.of f).G (dataPosition f (tables.of f).policy j) = unitBits (messageLen f) j := by
      have hcount : (tables.of f).G.rows.length = messageLen f := ((matrixOk_iff _).1 hG).1.trans hGr
      refine Eq.symm ((map_range_eq_iff ((length_col _ _).trans hcount)).2 fun i hi => ?_)
      rw [bitAt_col, (identityOk_iff f _).1 hidentity i j hi hj]
    rw [bitAt_vmm hvmm, hcol, dot_unitBits u hj]

/-- Over a valid table every n-bit word has an m-bit syndrome (R104). -/
theorem exists_syndrome_ok (h : tableValid f (tables.of f) = true) {w : Bits} (hw : w.length = blockLen f) :
    ∃ e, syndrome tables f w = .ok e ∧ e.length = syndromeLen f := by
  obtain ⟨hshapes, -⟩ := (tableValid_iff f _).1 h
  obtain ⟨-, -, -, -, -, hH, hHr, hHc⟩ := (shapesOk_iff f _).1 hshapes
  have hok : syndrome tables f w = .ok _ := (mvm_eq_ok_iff _ _ _).2 ⟨hH, hw.trans hHc.symm, rfl⟩
  exact ⟨_, hok, (mvm_length hok).trans hHr⟩

/-- Over a valid table every n-bit word decodes (R111). -/
theorem exists_decodeBlock_ok (h : tableValid f (tables.of f) = true) {w : Bits} (hw : w.length = blockLen f) :
    ∃ e c, syndrome tables f w = .ok e ∧ e.length = syndromeLen f ∧ correctCore tables f w e = .ok c ∧
      decodeBlock tables (some f) w = .ok (dataBits tables f c, e) := by
  obtain ⟨e, he, hlen⟩ := exists_syndrome_ok h hw
  obtain ⟨c, hc⟩ := exists_correctCore_ok h w hlen
  exact ⟨e, c, he, hlen, hc, decodeBlock_eq_ok hw he hc⟩

/-- Correcting by one syndrome twice restores the word (R112). -/
theorem correctCore_twice (h : tableValid f (tables.of f) = true) {w e c : Bits}
    (hc : correctCore tables f w e = .ok c) : correctCore tables f c e = .ok w := by
  rcases correctCore_eq_ok hc with ⟨rfl, rfl⟩ | ⟨-, j, hj, rfl, rfl⟩
  · exact hc
  · rw [correctCore_col h _ hj, flipBit_flipBit]

/-- A word with the zero syndrome, corrected by a syndrome, has that syndrome. -/
theorem syndrome_of_correctCore (h : tableValid f (tables.of f) = true) {c e w : Bits}
    (hzero : syndrome tables f c = .ok (zeros (syndromeLen f))) (hw : correctCore tables f c e = .ok w) :
    syndrome tables f w = .ok e := by
  obtain ⟨hshapes, -⟩ := (tableValid_iff f _).1 h
  obtain ⟨-, -, -, -, -, hH, hHr, hHc⟩ := (shapesOk_iff f _).1 hshapes
  rcases correctCore_eq_ok hw with ⟨rfl, rfl⟩ | ⟨-, j, hj, rfl, rfl⟩
  · exact hzero
  · have hcol : (col (tables.of f).H j).length = syndromeLen f := by
      rw [length_col, ((matrixOk_iff _).1 hH).1, hHr]
    rw [syndrome, mvm_flipBit hzero (hHc ▸ hj), zeros_xorBits hcol]

/-- DECODE undoes ENCODE followed by CORRECT: every pair of a base and a syndrome is decoded from some word. -/
theorem decodeBlock_of_correctCore (h : tableValid f (tables.of f) = true) {b e c w : Bits}
    (hb : b.length = messageLen f) (hc : encodeBlock tables (some f) b = .ok c)
    (hw : correctCore tables f c e = .ok w) :
    w.length = blockLen f ∧ decodeBlock tables (some f) w = .ok (b, e) := by
  obtain ⟨c', hc', -, hlen, hzero, hdata⟩ := exists_encodeBlock_codeword h hb
  obtain rfl : c' = c := Except.ok.inj (hc'.symm.trans hc)
  have hwlen : w.length = blockLen f := (correctCore_length hw).trans hlen
  refine ⟨hwlen, ?_⟩
  rw [decodeBlock_eq_ok hwlen (syndrome_of_correctCore h hzero hw) (correctCore_twice h hw), hdata]

/-- What DECODE can answer n-bit words: every k-bit base with every m-bit syndrome. -/
def decodeAnswers (f : Family) : List (Checked (Bits × Bits)) :=
  (allBits (messageLen f) ×ˢ allBits (syndromeLen f)).map .ok

theorem nodup_decodeAnswers (f : Family) : (decodeAnswers f).Nodup :=
  ((nodup_allBits _).product (nodup_allBits _)).map fun _ _ => Except.ok.inj

/-- There are as many n-bit words as there are pairs of a base and a syndrome. -/
theorem length_decodeAnswers (f : Family) : (decodeAnswers f).length = 2 ^ blockLen f := by
  rw [decodeAnswers, List.length_map, List.length_product, length_allBits, length_allBits, ← Nat.pow_add,
    messageLen_add_syndromeLen]

/-- Over a valid table DECODE is one to one on n-bit words: it answers every pair, and there are no more words than
pairs. -/
theorem decodeBlock_injOn (h : tableValid f (tables.of f) = true) {w w' : Bits} (hw : w.length = blockLen f)
    (hw' : w'.length = blockLen f) (heq : decodeBlock tables (some f) w = decodeBlock tables (some f) w') :
    w = w' := by
  have hsurj : decodeAnswers f ⊆ (allBits (blockLen f)).map (decodeBlock tables (some f)) := by
    intro answer hanswer
    obtain ⟨⟨b, e⟩, hbe, rfl⟩ := List.mem_map.1 hanswer
    obtain ⟨hb, he⟩ := List.mem_product.1 hbe
    obtain ⟨c, hc⟩ := exists_encodeBlock_ok h ((mem_allBits _ b).1 hb)
    obtain ⟨x, hx⟩ := exists_correctCore_ok h c ((mem_allBits _ e).1 he)
    obtain ⟨hlen, hdecode⟩ := decodeBlock_of_correctCore h ((mem_allBits _ b).1 hb) hc hx
    exact List.mem_map.2 ⟨x, (mem_allBits _ x).2 hlen, hdecode⟩
  have hperm : (decodeAnswers f).Perm ((allBits (blockLen f)).map (decodeBlock tables (some f))) := by
    refine ((nodup_decodeAnswers f).subperm hsurj).perm_of_length_le ?_
    rw [List.length_map, length_allBits, length_decodeAnswers]
  exact List.inj_on_of_nodup_map (hperm.nodup_iff.1 (nodup_decodeAnswers f)) ((mem_allBits _ w).2 hw)
    ((mem_allBits _ w').2 hw') heq

/-- The GDD inversion (R113): encoding the base of a word and correcting by its syndrome gives the word back. -/
theorem correctCore_encode_of_decodeBlock (h : tableValid f (tables.of f) = true) {w b e : Bits}
    (hw : w.length = blockLen f) (hdecode : decodeBlock tables (some f) w = .ok (b, e)) :
    ∃ c, encodeBlock tables (some f) b = .ok c ∧ c.length = blockLen f ∧ e.length = syndromeLen f ∧
      correctCore tables f c e = .ok w := by
  obtain ⟨e', _, -, he, -, hdecode'⟩ := exists_decodeBlock_ok h hw
  obtain ⟨-, rfl⟩ := Prod.mk.inj (Except.ok.inj (hdecode'.symm.trans hdecode))
  have hb := decodeBlock_base_length hdecode
  obtain ⟨c, hc, -, hlen, -⟩ := exists_encodeBlock_codeword h hb
  obtain ⟨x, hx⟩ := exists_correctCore_ok h c he
  obtain ⟨hxlen, hxdecode⟩ := decodeBlock_of_correctCore h hb hc hx
  obtain rfl : x = w := decodeBlock_injOn h hxlen hw (hxdecode.trans hdecode.symm)
  exact ⟨c, hc, hlen, he, hx⟩

/-- Over a valid table a non-zero syndrome is the column of exactly one position (R107). -/
theorem existsUnique_col (h : tableValid f (tables.of f) = true) {e : Bits} (he : e.length = syndromeLen f)
    (hne : e ≠ zeros (syndromeLen f)) :
    ∃ j, j < blockLen f ∧ col (tables.of f).H j = e ∧
      ∀ j', j' < blockLen f → col (tables.of f).H j' = e → j' = j := by
  obtain ⟨hshapes, hcolumns, -⟩ := (tableValid_iff f _).1 h
  obtain ⟨-, -, -, -, -, -, -, hc⟩ := (shapesOk_iff f _).1 hshapes
  obtain ⟨j, hj, rfl⟩ := List.mem_map.1 (mem_columns_of_tableValid h he hne)
  rw [hc, List.mem_range] at hj
  exact ⟨j, hj, rfl, fun j' hj' hcol => ((columnsOk_iff_col hc).1 hcolumns j' hj').2 j hj hcol⟩

end Valid

/-! ### The commands over a valid table -/

/-- Settles O27. -/
theorem encodeAnswersTheCodeword : Obligations.EncodeAnswersTheCodeword := by
  intro f s u htable hu
  obtain ⟨c, hc, hvmm, hlen, hzero, hdata⟩ := exists_encodeBlock_codeword htable hu
  rw [exec_encode_auto hu]
  exact ⟨c, exec_encodeOf_ok hc, exec_encodeOf_ok hc, hvmm, hlen, hzero, hdata⟩

/-- Settles O28: what correction by the word's own syndrome can do. -/
theorem decodeAnswersBaseAndSyndrome : Obligations.DecodeAnswersBaseAndSyndrome := by
  intro f s w htable hw
  obtain ⟨e, c, he, helen, hc, hdecode⟩ := exists_decodeBlock_ok htable hw
  rw [exec_decode_auto hw]
  refine ⟨e, c, exec_decodeOf_ok hdecode, exec_decodeOf_ok hdecode, he, helen, length_dataBits s.tables f c, ?_⟩
  rcases correctCore_eq_ok hc with ⟨hz, hcw⟩ | ⟨hne, hflip⟩
  · exact ⟨fun _ => hcw, fun hne => absurd hz hne⟩
  · exact ⟨fun hz => absurd hz hne, fun _ => hflip⟩

/-- Settles O29: a codeword is decoded as it is. -/
theorem decodeInvertsEncode : Obligations.DecodeInvertsEncode := by
  intro f s u htable hu
  obtain ⟨c, hc, -⟩ := exists_encodeBlock_codeword htable hu
  obtain ⟨-, hdecode⟩ := decodeBlock_of_correctCore htable hu hc (correctCore_zero s.tables f c)
  exact ⟨c, exec_encodeOf_ok hc, exec_decodeOf_ok hdecode⟩

/-- Settles O30: the flip is a correction by the position's column. -/
theorem decodeCorrectsAnySingleFlip : Obligations.DecodeCorrectsAnySingleFlip := by
  intro f s u p htable hu hp
  obtain ⟨c, hc, -⟩ := exists_encodeBlock_codeword htable hu
  obtain ⟨-, hdecode⟩ := decodeBlock_of_correctCore htable hu hc (correctCore_col htable c hp)
  exact ⟨c, exec_encodeOf_ok hc, exec_decodeOf_ok hdecode⟩

/-- Settles O31: a word with the zero syndrome decodes to its own data bits, so the GDD inversion says that they encode
to it. -/
theorem codewordsAreTheNullSpace : Obligations.CodewordsAreTheNullSpace := by
  intro f s w htable hw
  have hdata : (dataBits s.tables f w).length = messageLen f := length_dataBits s.tables f w
  constructor
  · intro hzero
    have hdecode := decodeBlock_eq_ok hw hzero (correctCore_zero s.tables f w)
    obtain ⟨c, hc, -, -, hcorrect⟩ := correctCore_encode_of_decodeBlock htable hw hdecode
    obtain rfl : c = w := Except.ok.inj ((correctCore_zero s.tables f c).symm.trans hcorrect)
    exact exec_encodeOf_ok hc
  · intro hexec
    obtain ⟨c, hc, -, -, hzero, -⟩ := exists_encodeBlock_codeword htable hdata
    have hafter : s.afterOk (.bits c) = s.afterOk (.bits w) :=
      Host.Outcome.next.inj ((exec_encodeOf_ok hc).symm.trans hexec)
    obtain rfl : c = w := by simpa [State.afterOk] using hafter
    exact hzero

/-- Settles O32: correction is by cases on the syndrome, and a non-zero one names one position. -/
theorem correctFlipsTheNamedBit : Obligations.CorrectFlipsTheNamedBit := by
  intro f s w e htable hw he
  obtain ⟨c, hc⟩ := exists_correctCore_ok htable w he
  have hblock := (correctBlock_explicit hw he).trans hc
  rw [exec_correct_auto hw]
  refine ⟨c, exec_correctOf_ok hblock, exec_correctOf_ok hblock, fun hz => ?zero, fun hne => ?flip⟩
  case zero =>
    rw [hz, correctCore_zero] at hc
    exact (Except.ok.inj hc).symm
  case flip =>
    obtain ⟨j, hj, rfl, hunique⟩ := existsUnique_col htable he hne
    rw [correctCore_col htable w hj] at hc
    exact ⟨j, hj, rfl, (Except.ok.inj hc).symm, hunique⟩

/-- Settles O33. -/
theorem correctTwiceRestores : Obligations.CorrectTwiceRestores := by
  intro f s w e htable hw he
  obtain ⟨c, hc⟩ := exists_correctCore_ok htable w he
  have hclen : c.length = blockLen f := (correctCore_length hc).trans hw
  exact ⟨c, exec_correctOf_ok ((correctBlock_explicit hw he).trans hc),
    exec_correctOf_ok ((correctBlock_explicit hclen he).trans (correctCore_twice htable hc))⟩

/-- Settles O35. -/
theorem gddInversion : Obligations.GddInversion := by
  intro f s w htable hw
  obtain ⟨e, x, -, -, -, hdecode⟩ := exists_decodeBlock_ok htable hw
  obtain ⟨c, hc, hlen, he, hcorrect⟩ := correctCore_encode_of_decodeBlock htable hw hdecode
  exact ⟨_, e, c, exec_decodeOf_ok hdecode, exec_encodeOf_ok hc,
    exec_correctOf_ok ((correctBlock_explicit hlen he).trans hcorrect)⟩

end Sys2Proof.Machine
end

section
/-! Uncorrectable syndromes (spec/41_block_code.md R107, spec/60_exceptions.md R160). First a syndrome that no column of
H equals, and how it ends DECODE, CORRECT, COMPRESS and DECOMPRESS over any table; then that a valid table has none, so
that no command over valid tables answers UncorrectableSyndrome. -/

namespace Sys2Proof.Machine

/-! ### A syndrome that no column equals -/

/-- DECODE of a word with such a syndrome (R111). -/
theorem decodeBlock_unmatched {s : State} {f : Family} {w e : Bits} (hw : w.length = blockLen f)
    (hsyndrome : mvm (s.tables.of f).H w = .ok e) (he : Unmatched s f e) :
    decodeBlock s.tables (some f) w = .error .uncorrectableSyndrome := by
  have hs : syndrome s.tables f w = .ok e := hsyndrome
  simp only [decodeBlock, hw, select_explicit, hs, bind, Except.bind, correctCore_unmatched he]

/-- Settles O34. -/
theorem unmatchedSyndromeRaises : Obligations.UnmatchedSyndromeRaises := by
  intro f s w e hw he
  refine ⟨fun hlen => ?correct, fun hsyndrome => ?decode⟩
  case correct =>
    have hblock := (correctBlock_explicit hw hlen).trans (correctCore_unmatched he w)
    rw [exec_correct_auto hw]
    exact ⟨exec_correctOf_error hblock, exec_correctOf_error hblock⟩
  case decode =>
    have hblock := decodeBlock_unmatched hw hsyndrome he
    rw [exec_decode_auto hw]
    exact ⟨exec_decodeOf_error hblock, exec_decodeOf_error hblock⟩

/-! ### The end of the pipeline commands (R137 to R139) -/

/-- DECODE that answers a result has decoded its word. -/
theorem decodeBlock_ok_of_exec {s : State} {f : Family} {w : Bits} {r : Result}
    (h : exec (decodeOf f w) s = .next (s.afterOk r)) : ∃ d, decodeBlock s.tables (some f) w = .ok d := by
  cases hd : decodeBlock s.tables (some f) w with
  | ok d => exact ⟨d, rfl⟩
  | error k =>
    have hstate : s.afterFault (errorCode k) = s.afterOk r :=
      Host.Outcome.next.inj ((exec_decodeOf_error hd).symm.trans h)
    simp [State.afterFault, State.afterOk] at hstate

/-- The compression loop raises what DECODE raises for the first chunk that it does not accept (R138). -/
theorem compressLoop_of_first_error {f : Family} {xs : List (Bits × Bit)} {i : Nat} {w : Bits} {carry : Bit}
    {k : ErrorKind} {s : State} (hat : xs[i]? = some (w, carry)) (herr : decodeBlock s.tables (some f) w = .error k)
    (hbefore : ∀ i' x, i' < i → xs[i']? = some x → ∃ d, decodeBlock s.tables (some f) x.1 = .ok d) (out : Emitted) :
    (compressLoop f xs out s).1 = .error k := by
  induction xs generalizing i out s with
  | nil => simp at hat
  | cons x rest ih =>
    cases i with
    | zero =>
      obtain rfl : x = (w, carry) := Option.some.inj hat
      rw [compressLoop_cons_error herr]
    | succ i =>
      obtain ⟨w', carry'⟩ := x
      obtain ⟨⟨b, syn⟩, hd⟩ := hbefore 0 (w', carry') (Nat.succ_pos i) rfl
      rw [compressLoop_cons_ok hd]
      refine ih hat (by rwa [dedupStep_tables]) (fun i' x' hi' hx' => ?_) _
      rw [dedupStep_tables]
      exact hbefore (i' + 1) x' (Nat.succ_lt_succ hi') hx'

/-- A COMPRESS within its capacity whose answer is an error gives its code and leaves no dedup table (R138, R162). -/
theorem exec_compressOf_error {f : Family} {data : List Byte} {s : State} {k : ErrorKind}
    (hfit : Fits s (bytesLoad data)) (h : compressAnswer s.tables f data = .error k) :
    exec (compressOf f data) s = .next { s.afterFault (errorCode k) with dedup := none } := by
  rw [exec_compressOf, within_of_fits hfit, compress_eq_compressAnswer, h, finish_error, raise_eq_afterFault]
  rfl

/-- The reconstruction loop raises what the first entry that does not rebuild raises (R139). -/
theorem rebuildEntries_of_first_error {tables : CodeTables} {f : Family} {lits devs : List Bits} {i : Nat}
    {lit dev : Bits} {k : ErrorKind} (hlit : lits[i]? = some lit) (hdev : devs[i]? = some dev)
    (herr : rebuildEntry tables f lit dev = .error k)
    (hbefore : ∀ i' lit' dev', i' < i → lits[i']? = some lit' → devs[i']? = some dev' →
      ∃ y, rebuildEntry tables f lit' dev' = .ok y) :
    rebuildEntries tables f lits devs = .error k := by
  induction lits generalizing i devs with
  | nil => simp at hlit
  | cons l lits ih =>
    cases devs with
    | nil => simp at hdev
    | cons d devs =>
      cases i with
      | zero =>
        obtain rfl : l = lit := Option.some.inj hlit
        obtain rfl : d = dev := Option.some.inj hdev
        rw [rebuildEntries, herr]; rfl
      | succ i =>
        obtain ⟨y, hy⟩ := hbefore 0 l d (Nat.succ_pos i) rfl rfl
        rw [rebuildEntries_cons hy, ih hlit hdev fun i' lit' dev' hi' hl hd =>
          hbefore (i' + 1) lit' dev' (Nat.succ_lt_succ hi') hl hd]
        rfl

/-- An entry stands for one literal (R136). -/
theorem standsFor_unique {bases : List BaseEntry} {e : BaseEntry} {lit lit' : Bits} (h : StandsFor bases e lit)
    (h' : StandsFor bases e lit') : lit = lit' :=
  Except.ok.inj (((resolveBase_eq_ok bases e lit).2 h).symm.trans ((resolveBase_eq_ok bases e lit').2 h'))

/-- An entry whose deviation replays such a syndrome does not rebuild (R137). -/
theorem rebuildEntry_unmatched {s : State} {f : Family} {lit dev c : Bits} (hlit : lit.length = messageLen f)
    (hc : vmm lit (s.tables.of f).G = .ok c) (hdev : Unmatched s f (dev.take (syndromeLen f))) :
    rebuildEntry s.tables f lit dev = .error .uncorrectableSyndrome := by
  rw [rebuildEntry, encodeBlock_explicit hlit, hc]
  simp only [bind, Except.bind, slice_zero, correctCore_unmatched hdev]

/-- A stream that passes validation raises what its reconstruction raises (R139). -/
theorem decompress_of_rebuild_error {tables : CodeTables} {f : Family} {cs : CompressedStream} {lits : List Bits}
    {k : ErrorKind} (hvalid : validateStream f cs = .ok lits)
    (h : rebuildEntries tables f lits cs.deviations = .error k) : decompress tables f cs = .error k := by
  rw [decompress, hvalid]
  simp only [bind, Except.bind, h]

/-- A DECOMPRESS that raises an error has no output to measure (R139). -/
theorem exec_decompressOf_error {f : Family} {cs : CompressedStream} {s : State} {k : ErrorKind}
    (hfit : Fits s (streamLoad cs)) (h : decompress s.tables f cs = .error k) :
    exec (decompressOf f cs) s = .next (s.afterFault (errorCode k)) := by
  rw [exec_decompressOf, h, outputLoad, List.append_nil, within_of_fits hfit]
  exact congrArg _ (finish_map_error rfl _ s)

/-- Settles O52: each loop ends at its first failing element, which is the one with the unmatched syndrome. -/
theorem unmatchedSyndromeEndsThePipeline : Obligations.UnmatchedSyndromeEndsThePipeline := by
  intro f s i
  refine ⟨?compress, ?decompress⟩
  case compress =>
    intro data w e carry hfit hat hsyndrome he hbefore
    have hw : w.length = blockLen f := length_window (List.mem_of_getElem? hat)
    have hloop := compressLoop_of_first_error (s := (State.initial ⟨s.tables, .unbounded⟩).openDedup) hat
      (decodeBlock_unmatched hw hsyndrome he)
      (fun i' x hi' hx => (hbefore i' x hi' hx).elim fun _ => decodeBlock_ok_of_exec) ⟨[], []⟩
    refine exec_compressOf_error (k := .uncorrectableSyndrome) hfit ?_
    rw [compressAnswer, hloop]
    rfl
  case decompress =>
    intro cs entry lit dev c hfit hcs hentry hdev hstands hc he hbefore
    obtain ⟨lits, hvalid, hlen, hlits⟩ := validateStream_ok hcs
    have hsource : ∀ (i' : Nat) (lit' : Bits), lits[i']? = some lit' →
        ∃ entry', cs.bases[i']? = some entry' ∧ StandsFor cs.bases entry' lit' := by
      intro i' lit' hlit'
      have hi' : i' < cs.bases.length := hlen ▸ (List.getElem?_eq_some_iff.1 hlit').1
      exact ⟨_, List.getElem?_eq_getElem hi', (hlits i' _ lit' (List.getElem?_eq_getElem hi') hlit').1⟩
    have hi : i < lits.length := hlen ▸ (List.getElem?_eq_some_iff.1 hentry).1
    obtain ⟨hstands', hwidth⟩ := hlits i entry lits[i] hentry (List.getElem?_eq_getElem hi)
    obtain rfl : lits[i] = lit := standsFor_unique hstands' hstands
    refine exec_decompressOf_error (k := .uncorrectableSyndrome) hfit (decompress_of_rebuild_error hvalid ?_)
    refine rebuildEntries_of_first_error (List.getElem?_eq_getElem hi) hdev (rebuildEntry_unmatched hwidth hc he) ?_
    intro i' lit' dev' hi' hlit' hdev'
    obtain ⟨entry', hentry', hst⟩ := hsource i' lit' hlit'
    exact hbefore i' entry' lit' dev' hi' hentry' hdev' hst

/-! ### Valid tables exclude it (R107, R160) -/

/-- The computation does not end in UncorrectableSyndrome. -/
def Correctable {α : Type} (a : Checked α) : Prop := a ≠ .error .uncorrectableSyndrome

section Correctable
variable {α β : Type} {a : Checked α}

theorem correctable_ok (x : α) : Correctable (.ok x : Checked α) := nofun

theorem correctable_of_eq_ok {x : α} (h : a = .ok x) : Correctable a := h ▸ correctable_ok x

/-- A computation whose errors are all of another kind. -/
theorem correctable_of_error_ne (h : ∀ k, a = .error k → k ≠ .uncorrectableSyndrome) : Correctable a :=
  fun ha => h _ ha rfl

/-- A sequence of computations raises the first error of the two. -/
theorem correctable_bind {g : α → Checked β} (h : Correctable a) (hg : ∀ x, a = .ok x → Correctable (g x)) :
    Correctable (a >>= g) := by
  cases a with
  | ok x => exact hg x rfl
  | error k => exact fun hk => h (congrArg Except.error (Except.error.inj hk))

theorem correctable_map (h : Correctable a) (g : α → β) : Correctable (a.map g) := by
  cases a with
  | ok x => exact correctable_ok (g x)
  | error k => exact fun hk => h (congrArg Except.error (Except.error.inj hk))

end Correctable

/-! #### What the parts raise, over any table -/

theorem correctable_vmm (v : Bits) (m : Matrix) : Correctable (vmm v m) :=
  correctable_of_error_ne fun _ h => vmm_eq_error h ▸ nofun

theorem correctable_mvm (m : Matrix) (v : Bits) : Correctable (mvm m v) :=
  correctable_of_error_ne fun _ h => mvm_eq_error h ▸ nofun

/-- Selection raises the two length errors only (R106). -/
theorem correctable_select (sel : Option Family) (len : Nat) (dim : Family → Nat) :
    Correctable (select sel len dim) := by
  unfold Correctable select
  split <;> split_ifs <;> nofun

theorem correctable_encodeBlock (tables : CodeTables) (sel : Option Family) (u : Bits) :
    Correctable (encodeBlock tables sel u) :=
  correctable_bind (correctable_select _ _ _) fun _ _ => correctable_vmm _ _

/-- Entry validation (R136): the first entry's three checks, then the other entries. -/
theorem validateEntries_cons (f : Family) (bases : List BaseEntry) (e : BaseEntry) (es : List BaseEntry) (dev : Bits)
    (devs : List Bits) :
    validateEntries f bases (e :: es) (dev :: devs) = resolveBase bases e >>= fun lit =>
      if lit.length ≠ messageLen f then .error .invalidLength
      else if dev.length ≠ deviationLen f then .error .malformedStream
      else (validateEntries f bases es devs).map (lit :: ·) := by
  rw [validateEntries]
  refine bind_congr fun lit => ?_
  split_ifs <;> rfl

/-- Entries pass validation only when the first one has the right widths and the others pass (R136). -/
theorem validateEntries_cons_eq_ok {f : Family} {bases es : List BaseEntry} {e : BaseEntry} {dev : Bits}
    {devs lits : List Bits} (h : validateEntries f bases (e :: es) (dev :: devs) = .ok lits) :
    ∃ lit rest, lits = lit :: rest ∧ lit.length = messageLen f ∧ dev.length = deviationLen f ∧
      validateEntries f bases es devs = .ok rest := by
  rw [validateEntries_cons] at h
  cases hlit : resolveBase bases e with
  | error k => rw [hlit] at h; cases h
  | ok lit =>
    rw [hlit] at h
    simp only [bind, Except.bind] at h
    split_ifs at h with hwidth hdev
    cases hrest : validateEntries f bases es devs with
    | error k => rw [hrest] at h; cases h
    | ok rest =>
      rw [hrest] at h
      exact ⟨lit, rest, (Except.ok.inj h).symm, not_not.1 hwidth, not_not.1 hdev, rfl⟩

/-- Validation raises InvalidLength and MalformedStream only (R136). -/
theorem correctable_validateEntries (f : Family) (bases es : List BaseEntry) (devs : List Bits) :
    Correctable (validateEntries f bases es devs) := by
  induction es generalizing devs with
  | nil => exact correctable_ok []
  | cons e es ih =>
    cases devs with
    | nil => exact correctable_ok []
    | cons dev devs =>
      rw [validateEntries_cons]
      refine correctable_bind ?resolve fun lit _ => ?checks
      case resolve => exact correctable_of_error_ne fun _ h => resolveBase_error h ▸ nofun
      case checks =>
        split_ifs
        · exact nofun
        · exact nofun
        · exact correctable_map (ih devs) _

theorem correctable_validateStream (f : Family) (cs : CompressedStream) : Correctable (validateStream f cs) := by
  unfold validateStream
  split_ifs
  · exact nofun
  · exact nofun
  · exact nofun
  · exact correctable_validateEntries f cs.bases cs.bases cs.deviations

/-! #### The commands over valid tables -/

section ValidTable
variable {tables : CodeTables} {f : Family}

/-- DECODE with an explicit family: a word of the wrong length is refused, and every other one decodes. -/
theorem correctable_decodeBlock_explicit (h : tableValid f (tables.of f) = true) (w : Bits) :
    Correctable (decodeBlock tables (some f) w) := by
  by_cases hw : w.length = blockLen f
  · obtain ⟨e, c, -, -, -, hdecode⟩ := exists_decodeBlock_ok h hw
    exact correctable_of_eq_ok hdecode
  · rw [decodeBlock_of_select_error (select_explicit_wrong hw)]
    exact nofun

/-- CORRECT with an explicit family: wrong lengths are refused, and every m-bit syndrome resolves. -/
theorem correctable_correctBlock_explicit (h : tableValid f (tables.of f) = true) (w e : Bits) :
    Correctable (correctBlock tables (some f) w e) := by
  by_cases hw : w.length = blockLen f
  · by_cases he : e.length = syndromeLen f
    · obtain ⟨c, hc⟩ := exists_correctCore_ok h w he
      exact correctable_of_eq_ok ((correctBlock_explicit hw he).trans hc)
    · rw [correctBlock_of_syndrome_length hw he]
      exact nofun
  · rw [correctBlock_of_select_error (select_explicit_wrong hw)]
    exact nofun

theorem correctable_compressLoop {s : State} (h : tableValid f (s.tables.of f) = true) (xs : List (Bits × Bit))
    (out : Emitted) : Correctable (compressLoop f xs out s).1 := by
  induction xs generalizing out s with
  | nil => exact correctable_ok out
  | cons x rest ih =>
    obtain ⟨w, carry⟩ := x
    cases hd : decodeBlock s.tables (some f) w with
    | error k =>
      rw [compressLoop_cons_error hd]
      exact fun hk => correctable_decodeBlock_explicit h w (hd.trans (congrArg _ (Except.error.inj hk)))
    | ok d =>
      obtain ⟨b, syn⟩ := d
      rw [compressLoop_cons_ok hd]
      exact ih (by rwa [dedupStep_tables]) _

theorem correctable_compressAnswer (h : tableValid f (tables.of f) = true) (data : List Byte) :
    Correctable (compressAnswer tables f data) :=
  correctable_map (correctable_compressLoop (s := (State.initial ⟨tables, .unbounded⟩).openDedup) h _ _) _

/-- Entries that pass validation rebuild, in step with the loop that validated them. -/
theorem correctable_rebuildEntries (h : tableValid f (tables.of f) = true) {bases es : List BaseEntry}
    {devs lits : List Bits} (hvalid : validateEntries f bases es devs = .ok lits) :
    Correctable (rebuildEntries tables f lits devs) := by
  induction es generalizing devs lits with
  | nil =>
    obtain rfl : [] = lits := Except.ok.inj hvalid
    exact correctable_ok []
  | cons e es ih =>
    cases devs with
    | nil =>
      obtain rfl : [] = lits := Except.ok.inj hvalid
      exact correctable_ok []
    | cons dev devs =>
      obtain ⟨lit, rest, rfl, hlit, hdev, hrest⟩ := validateEntries_cons_eq_ok hvalid
      obtain ⟨y, hy⟩ := exists_rebuildEntry_ok h hlit hdev
      rw [rebuildEntries_cons hy]
      exact correctable_map (ih hrest) _

/-- A stream passes validation through its entries. -/
theorem validateEntries_of_validateStream {cs : CompressedStream} {lits : List Bits}
    (h : validateStream f cs = .ok lits) : validateEntries f cs.bases cs.bases cs.deviations = .ok lits := by
  unfold validateStream at h
  split_ifs at h
  exact h

theorem correctable_decompress (h : tableValid f (tables.of f) = true) (cs : CompressedStream) :
    Correctable (decompress tables f cs) :=
  correctable_bind (correctable_validateStream f cs) fun _ hvalid =>
    correctable_bind (correctable_rebuildEntries h (validateEntries_of_validateStream hvalid)) fun _ _ =>
      correctable_ok _

end ValidTable

section ValidTables
variable {tables : CodeTables}

/-- With AUTO a codeword's length selects a family or fails (R106). -/
theorem correctable_decodeBlock_auto (h : tablesValid tables = true) (w : Bits) :
    Correctable (decodeBlock tables none w) := by
  by_cases hw : ∃ f, w.length = blockLen f
  · obtain ⟨f, hf⟩ := hw
    rw [decodeBlock_auto hf]
    exact correctable_decodeBlock_explicit (tablesValid_of h f) w
  · rw [decodeBlock_of_select_error (select_auto_wrong (not_exists.1 hw))]
    exact nofun

theorem correctable_correctBlock_auto (h : tablesValid tables = true) (w e : Bits) :
    Correctable (correctBlock tables none w e) := by
  by_cases hw : ∃ f, w.length = blockLen f
  · obtain ⟨f, hf⟩ := hw
    rw [correctBlock_auto hf]
    exact correctable_correctBlock_explicit (tablesValid_of h f) w e
  · rw [correctBlock_of_select_error (select_auto_wrong (not_exists.1 hw))]
    exact nofun

/-- Over valid tables no command's answer is UncorrectableSyndrome. -/
theorem correctable_instrAnswer (h : tablesValid tables = true) (i : Instr) : Correctable (instrAnswer tables i) := by
  have htable := tablesValid_of h
  cases i with
  | add a b => exact correctable_ok _
  | mul a b => exact correctable_ok _
  | vmm v m => exact correctable_map (correctable_vmm v m) _
  | mvm m v => exact correctable_map (correctable_mvm m v) _
  | encode u => exact correctable_map (correctable_encodeBlock tables none u) _
  | encode74 u => exact correctable_map (correctable_encodeBlock tables (some .sevenFour) u) _
  | encode1511 u => exact correctable_map (correctable_encodeBlock tables (some .fifteenEleven) u) _
  | decode w => exact correctable_map (correctable_decodeBlock_auto h w) _
  | decode74 w => exact correctable_map (correctable_decodeBlock_explicit (htable .sevenFour) w) _
  | decode1511 w => exact correctable_map (correctable_decodeBlock_explicit (htable .fifteenEleven) w) _
  | correct w e => exact correctable_map (correctable_correctBlock_auto h w e) _
  | correct74 w e => exact correctable_map (correctable_correctBlock_explicit (htable .sevenFour) w e) _
  | correct1511 w e => exact correctable_map (correctable_correctBlock_explicit (htable .fifteenEleven) w e) _
  | compress74 d => exact correctable_compressAnswer (htable .sevenFour) d
  | compress1511 d => exact correctable_compressAnswer (htable .fifteenEleven) d
  | decompress74 cs => exact correctable_map (correctable_decompress (htable .sevenFour) cs) _
  | decompress1511 cs => exact correctable_map (correctable_decompress (htable .fifteenEleven) cs) _

end ValidTables

/-! ### Steps -/

/-- Code 4 is UncorrectableSyndrome's alone (R160). -/
theorem eq_uncorrectable_of_errorCode {k : ErrorKind} (h : errorCode k = errorCode .uncorrectableSyndrome) :
    k = .uncorrectableSyndrome := by
  cases k with
  | uncorrectableSyndrome => rfl
  | _ => exact absurd h (by decide)

theorem isFault_responseOf {a : Checked Result} (h : Correctable a) :
    Delivery.isFault .uncorrectableSyndrome (.response (responseOf a)) = false := by
  cases a with
  | ok r => rfl
  | error k =>
    exact beq_eq_false_iff_ne.2 fun hk => h (congrArg Except.error (eq_uncorrectable_of_errorCode hk))

/-- One more delivery that is not that fault. -/
theorem neverUncorrectable_append {s t : State} {d : Delivery} (h : NeverUncorrectable s)
    (hd : d.isFault .uncorrectableSyndrome = false) (ht : t.outbox = s.outbox ++ [d]) : NeverUncorrectable t := by
  intro d' hd'
  rw [ht, List.mem_append, List.mem_singleton] at hd'
  rcases hd' with hd' | rfl
  · exact h d' hd'
  · exact hd

/-- Settles O15, over what a step can do: only a decoded instruction can give an answer with an error of its own, and
that is another one. -/
theorem uncorrectableSyndromeIsNeverAnswered : Obligations.UncorrectableSyndromeIsNeverAnswered := by
  intro s t hinv hnever hstep
  refine ⟨stepKeepsTheInvariant s t hinv hstep, ?_⟩
  rcases step_cases hstep with ⟨-, rfl⟩ | ⟨r, rest, i, -, -, hexec⟩ | ⟨r, rest, e, -, -, rfl⟩ | ⟨rest, -, rfl⟩ |
    ⟨b, rest, -, rfl⟩ | ⟨rest, -, -, rfl⟩
  case inl => exact hnever
  case inr.inl =>
    obtain ⟨htables, -⟩ := hinv
    obtain ⟨-, rfl⟩ := (exec_eq_next_iff i _ t).1 hexec
    exact neverUncorrectable_append hnever (isFault_responseOf (correctable_instrAnswer htables i))
      (complete_outbox _ i)
  case inr.inr.inl => exact neverUncorrectable_append hnever rfl (raise_outbox _ .illegalCommand)
  case inr.inr.inr.inl => exact neverUncorrectable_append hnever rfl (deliver_outbox _ _)
  case inr.inr.inr.inr.inl => exact hnever
  case inr.inr.inr.inr.inr => exact hnever

end Sys2Proof.Machine
end

section
/-! GDD pipeline, compression (spec/42_gdd_pipeline.md R131 to R134, R138, R141). First the padding and the number of
chunks; then the Base sequence that a list of decoded bases has, as a function of that list alone; then the loop, which
over a valid table emits that sequence. -/

namespace Sys2Proof.Machine

/-! ### Padding (R132, R135) -/

/-- Settles O39. -/
theorem paddingIsOneZeroByte : Obligations.PaddingIsOneZeroByte := fun _ =>
  ⟨rfl, fun hodd => if_pos hodd, fun heven => if_neg (by omega)⟩

/-- What padding can do: append the zero byte to an odd FifteenEleven input, or nothing. -/
theorem padInput_cases (f : Family) (d : List Byte) :
    (f = .fifteenEleven ∧ d.length % 2 = 1 ∧ padInput f d = (d ++ [0x00], true)) ∨
    ((f = .fifteenEleven → d.length % 2 = 0) ∧ padInput f d = (d, false)) := by
  obtain ⟨h74, hodd, heven⟩ := paddingIsOneZeroByte d
  cases f with
  | sevenFour => exact .inr ⟨nofun, h74⟩
  | fifteenEleven =>
    rcases Nat.mod_two_eq_zero_or_one d.length with h | h
    · exact .inr ⟨fun _ => h, heven h⟩
    · exact .inl ⟨rfl, h, hodd h⟩

theorem padInput_flag (f : Family) (d : List Byte) :
    (padInput f d).2 = (decide (f = .fifteenEleven) && decide (d.length % 2 = 1)) := by
  rcases padInput_cases f d with ⟨rfl, hodd, h⟩ | ⟨heven, h⟩
  · simp [h, hodd]
  · cases f with
    | sevenFour => simp [h]
    | fifteenEleven => simp [h, heven rfl]

/-- A padded input has no byte left over (R132). -/
theorem length_padInput_mod (f : Family) (d : List Byte) : (padInput f d).1.length % chunkBytes f = 0 := by
  rcases padInput_cases f d with ⟨rfl, hodd, h⟩ | ⟨heven, h⟩
  · rw [h, List.length_append, List.length_singleton, chunkBytes]
    omega
  · rw [h]
    cases f with
    | sevenFour => exact Nat.mod_one _
    | fifteenEleven => exact heven rfl

/-- Dropping the padding byte gives the input back (R139). -/
theorem dropLast_padInput (f : Family) (d : List Byte) :
    (if (padInput f d).2 then (padInput f d).1.dropLast else (padInput f d).1) = d := by
  rcases padInput_cases f d with ⟨-, -, h⟩ | ⟨-, h⟩ <;> simp [h]

/-- A padded input has one chunk for each chunk of the input, the last one filled up (R138). -/
theorem length_chunks_padInput (f : Family) (d : List Byte) :
    (chunks f (padInput f d).1).length = chunkCount f d := by
  cases f with
  | sevenFour => rw [chunks_sevenFour, List.length_map]; rfl
  | fifteenEleven =>
    rw [length_chunks_fifteenEleven, chunkCount]
    rcases padInput_cases .fifteenEleven d with ⟨-, hodd, h⟩ | ⟨heven, h⟩
    · rw [h, List.length_append, List.length_singleton]
    · have := heven rfl
      rw [h]
      dsimp only
      omega

@[simp] theorem length_decodedBases (tables : CodeTables) (f : Family) (d : List Byte) :
    (decodedBases tables f d).length = chunkCount f d := by
  rw [decodedBases, List.length_map, length_chunks_padInput]

/-! ### The Base sequence of a list of bases (R134) -/

/-- The entries that deduplication makes of the bases of the chunks: a Literal where a base stands first, and from then
on a Reference to that position. -/
def baseEntries (bs : List Bits) : List BaseEntry :=
  bs.mapIdx fun i b => if bs.idxOf b = i then .literal b else .reference (bs.idxOf b)

@[simp] theorem length_baseEntries (bs : List Bits) : (baseEntries bs).length = bs.length := List.length_mapIdx

section BaseEntries
variable {bs : List Bits} {b : Bits} {i : Nat}

theorem getElem?_baseEntries (h : bs[i]? = some b) :
    (baseEntries bs)[i]? = some (if bs.idxOf b = i then .literal b else .reference (bs.idxOf b)) := by
  rw [baseEntries, List.getElem?_mapIdx, h, Option.map_some]

/-- The first position of a base holds its Literal. -/
theorem getElem?_baseEntries_idxOf (h : b ∈ bs) : (baseEntries bs)[bs.idxOf b]? = some (.literal b) := by
  rw [getElem?_baseEntries (List.getElem?_idxOf h), if_pos rfl]

/-- A base stands first no later than at any position of it. -/
theorem idxOf_le_of_getElem? (h : bs[i]? = some b) : bs.idxOf b ≤ i := by
  obtain ⟨hi, rfl⟩ := List.getElem?_eq_some_iff.1 h
  exact Nat.le_of_not_lt fun hlt => by simpa using List.not_of_lt_findIdx hlt

/-- A Reference points back at the Literal of its own base (R141 a). -/
theorem baseEntries_reference {j : Nat} (h : (baseEntries bs)[i]? = some (.reference j)) :
    j < i ∧ ∃ b, bs[i]? = some b ∧ (baseEntries bs)[j]? = some (.literal b) := by
  have hi : i < bs.length := length_baseEntries bs ▸ (List.getElem?_eq_some_iff.1 h).1
  have hb : bs[i]? = some bs[i] := List.getElem?_eq_getElem hi
  rw [getElem?_baseEntries hb] at h
  split_ifs at h with hfirst
  · cases h
  · cases h
    have hback : bs.idxOf bs[i] < i := lt_of_le_of_ne (idxOf_le_of_getElem? hb) hfirst
    exact ⟨hback, bs[i], hb, getElem?_baseEntries_idxOf (List.getElem_mem hi)⟩

/-- Every entry resolves to the base it was made of (R141 d). -/
theorem standsFor_baseEntries {e : BaseEntry} (he : (baseEntries bs)[i]? = some e) (hb : bs[i]? = some b) :
    StandsFor (baseEntries bs) e b := by
  rw [getElem?_baseEntries hb] at he
  split_ifs at he with hfirst
  · cases he; rfl
  · cases he; exact getElem?_baseEntries_idxOf (List.mem_of_getElem? hb)

/-- One more base changes no earlier entry, and its own entry depends on whether it is known. -/
theorem baseEntries_concat (bs : List Bits) (b : Bits) :
    baseEntries (bs ++ [b]) = baseEntries bs ++ [if b ∈ bs then .reference (bs.idxOf b) else .literal b] := by
  have hold : ∀ x ∈ bs, (bs ++ [b]).idxOf x = bs.idxOf x := fun x hx => List.idxOf_append_of_mem hx
  rw [baseEntries, List.mapIdx_concat]
  congr 1
  · refine List.ext_getElem? fun i => ?_
    rw [baseEntries, List.getElem?_mapIdx, List.getElem?_mapIdx]
    refine Option.map_congr fun x hx => ?_
    rw [hold x (List.mem_of_getElem? hx)]
  · by_cases hb : b ∈ bs
    · rw [hold b hb, if_pos hb, if_neg (List.idxOf_lt_length_iff.2 hb).ne]
    · rw [if_neg hb, if_pos (by simp [List.idxOf_append, hb])]

/-- The Literals are the bases, each once (R141 b, c). -/
theorem literals_baseEntries (bs : List Bits) :
    (literals (baseEntries bs)).Nodup ∧ ∀ b, b ∈ literals (baseEntries bs) ↔ b ∈ bs := by
  induction bs using List.reverseRecOn with
  | nil => exact ⟨List.nodup_nil, fun _ => Iff.rfl⟩
  | append_singleton bs b ih =>
    obtain ⟨hnodup, hmem⟩ := ih
    by_cases hb : b ∈ bs
    · have hlits : literals (baseEntries (bs ++ [b])) = literals (baseEntries bs) := by
        simp [baseEntries_concat, literals, hb]
      rw [hlits]
      refine ⟨hnodup, fun x => ?_⟩
      rw [hmem, List.mem_append, List.mem_singleton, or_iff_left_of_imp]
      rintro rfl
      exact hb
    · have hlits : literals (baseEntries (bs ++ [b])) = literals (baseEntries bs) ++ [b] := by
        simp [baseEntries_concat, literals, hb]
      rw [hlits]
      refine ⟨hnodup.append (List.nodup_singleton b) (List.disjoint_singleton.2 ((hmem b).not.2 hb)), fun x => ?_⟩
      rw [List.mem_append, hmem, List.mem_append]

/-- There is one Literal per distinct base (R141 b). -/
theorem length_literals_baseEntries (bs : List Bits) : (literals (baseEntries bs)).length = bs.dedup.length := by
  obtain ⟨hnodup, hmem⟩ := literals_baseEntries bs
  exact ((List.perm_ext_iff_of_nodup hnodup (List.nodup_dedup bs)).2 fun b => by rw [hmem, List.mem_dedup]).length_eq

end BaseEntries

/-! ### The loop over a valid table (R133, R138) -/

/-- The syndrome that DECODE gives a window (R111). -/
def decodedSyndrome (tables : CodeTables) (f : Family) (w : Bits) : Bits :=
  match decodeBlock tables (some f) w with
  | .ok (_, e) => e
  | .error _ => []

/-- The deviation of a chunk: the window's syndrome, then the carry (R131). -/
def chunkDeviation (tables : CodeTables) (f : Family) (x : Bits × Bit) : Bits := decodedSyndrome tables f x.1 ++ [x.2]

/-- DECODE's answer to a window is the pair of its base and its syndrome. -/
theorem decodeBlock_eq_decoded {tables : CodeTables} {f : Family} (h : tableValid f (tables.of f) = true) {w : Bits}
    (hw : w.length = blockLen f) :
    decodeBlock tables (some f) w = .ok (decodedBase tables f w, decodedSyndrome tables f w) := by
  obtain ⟨e, c, -, -, -, hdecode⟩ := exists_decodeBlock_ok h hw
  rw [decodedBase, decodedSyndrome, hdecode]

theorem length_decodedSyndrome {tables : CodeTables} {f : Family} (h : tableValid f (tables.of f) = true) {w : Bits}
    (hw : w.length = blockLen f) : (decodedSyndrome tables f w).length = syndromeLen f := by
  obtain ⟨-, -, -, he, -⟩ := correctCore_encode_of_decodeBlock h hw (decodeBlock_eq_decoded h hw)
  exact he

theorem length_chunkDeviation {tables : CodeTables} {f : Family} (h : tableValid f (tables.of f) = true)
    {x : Bits × Bit} (hx : x.1.length = blockLen f) : (chunkDeviation tables f x).length = deviationLen f := by
  rw [chunkDeviation, List.length_append, length_decodedSyndrome h hx]
  rfl

/-- The dedup table holds the bases seen so far, each with its first position (R134). -/
def Knows (s : State) (bs : List Bits) : Prop :=
  ∀ b, s.dedupLookup b = if b ∈ bs then some (bs.idxOf b) else none

theorem knows_openDedup (s : State) : Knows s.openDedup [] := fun _ => rfl

theorem dedupLookup_dedupInsert (s : State) (b x : Bits) (j : Nat) :
    (s.dedupInsert b j).dedupLookup x = (s.dedupLookup x).or (if x = b then some j else none) := by
  rw [State.dedupLookup, dedupInsert_dedup, Option.getD_some, List.lookup_append, State.dedupLookup]
  by_cases hx : x = b
  · simp [hx]
  · simp [List.lookup, hx, beq_false_of_ne hx]

/-- A known base keeps its first position when it comes again. -/
theorem knows_concat_of_mem {s : State} {bs : List Bits} {b : Bits} (h : Knows s bs) (hb : b ∈ bs) :
    Knows s (bs ++ [b]) := by
  intro x
  rw [h x]
  by_cases hx : x ∈ bs
  · rw [if_pos hx, if_pos (List.mem_append_left _ hx), List.idxOf_append_of_mem hx]
  · have hne : x ≠ b := fun hxb => hx (hxb ▸ hb)
    rw [if_neg hx, if_neg (by simp [hx, hne])]

/-- A new base is recorded with the position that it takes. -/
theorem knows_dedupInsert {s : State} {bs : List Bits} {b : Bits} (h : Knows s bs) (hb : b ∉ bs) :
    Knows (s.dedupInsert b bs.length) (bs ++ [b]) := by
  intro x
  rw [dedupLookup_dedupInsert, h x]
  by_cases hx : x ∈ bs
  · rw [if_pos hx, if_pos (List.mem_append_left _ hx), List.idxOf_append_of_mem hx, Option.some_or]
  · rw [if_neg hx, Option.none_or]
    by_cases hxb : x = b
    · subst hxb
      simp [List.idxOf_append, hb]
    · simp [hx, hxb]

/-- The dedup step emits the next entry of the Base sequence and keeps the table up to date (R134). -/
theorem dedupStep_of_knows {s : State} {bs : List Bits} (h : Knows s bs) (b dev : Bits) (devs : List Bits) :
    (dedupStep b dev ⟨baseEntries bs, devs⟩ s).1 = ⟨baseEntries (bs ++ [b]), devs ++ [dev]⟩ ∧
      Knows (dedupStep b dev ⟨baseEntries bs, devs⟩ s).2 (bs ++ [b]) := by
  have hlookup := h b
  rw [baseEntries_concat]
  by_cases hb : b ∈ bs
  · rw [if_pos hb] at hlookup
    rw [dedupStep, hlookup, if_pos hb]
    exact ⟨rfl, knows_concat_of_mem h hb⟩
  · rw [if_neg hb] at hlookup
    rw [dedupStep, hlookup, if_neg hb]
    exact ⟨rfl, length_baseEntries bs ▸ knows_dedupInsert h hb⟩

/-- Over a valid table the loop emits the Base sequence of all bases and one deviation per chunk. -/
theorem compressLoop_eq_ok {f : Family} (xs : List (Bits × Bit)) {s : State} {bs : List Bits} (devs : List Bits)
    (htable : tableValid f (s.tables.of f) = true) (hxs : ∀ x ∈ xs, x.1.length = blockLen f) (hknows : Knows s bs) :
    (compressLoop f xs ⟨baseEntries bs, devs⟩ s).1 =
      .ok ⟨baseEntries (bs ++ xs.map fun x => decodedBase s.tables f x.1),
        devs ++ xs.map (chunkDeviation s.tables f)⟩ := by
  induction xs generalizing s bs devs with
  | nil => simp [compressLoop]
  | cons x rest ih =>
    obtain ⟨w, carry⟩ := x
    obtain ⟨hw, hrest⟩ := List.forall_mem_cons.1 hxs
    rw [compressLoop_cons_ok (decodeBlock_eq_decoded htable hw)]
    obtain ⟨hout, hknows'⟩ := dedupStep_of_knows hknows (decodedBase s.tables f w)
      (decodedSyndrome s.tables f w ++ [carry]) devs
    rw [hout, ih _ (by rwa [dedupStep_tables]) hrest hknows', dedupStep_tables, List.append_assoc, List.append_assoc]
    rfl

/-! ### COMPRESS over a valid table (R138) -/

/-- What COMPRESS answers over a valid table: the Base sequence of the decoded bases, the deviations and the pad
flag. -/
def compressedStream (tables : CodeTables) (f : Family) (data : List Byte) : CompressedStream where
  bases := baseEntries (decodedBases tables f data)
  deviations := (chunks f (padInput f data).1).map (chunkDeviation tables f)
  pad := (padInput f data).2

theorem compressAnswer_eq_ok {tables : CodeTables} {f : Family} (h : tableValid f (tables.of f) = true)
    (data : List Byte) : compressAnswer tables f data = .ok (.stream (compressedStream tables f data)) := by
  have hloop := compressLoop_eq_ok (s := (State.initial ⟨tables, .unbounded⟩).openDedup)
    (chunks f (padInput f data).1) [] h (fun _ => length_window) (knows_openDedup _)
  rw [compressAnswer]
  exact congrArg _ hloop

theorem exec_compressOf_ok {f : Family} {s : State} {data : List Byte} (h : tableValid f (s.tables.of f) = true)
    (hfit : Fits s (bytesLoad data)) :
    exec (compressOf f data) s =
      .next { s.afterOk (.stream (compressedStream s.tables f data)) with dedup := none } := by
  rw [exec_compressOf, within_of_fits hfit, compress_eq_compressAnswer, compressAnswer_eq_ok h, finish_ok,
    returnOk_eq_afterOk]
  rfl

section CompressedStream
variable (tables : CodeTables) (f : Family) (data : List Byte)

@[simp] theorem length_compressedStream_bases : (compressedStream tables f data).bases.length = chunkCount f data := by
  rw [compressedStream, length_baseEntries, length_decodedBases]

@[simp] theorem length_compressedStream_deviations :
    (compressedStream tables f data).deviations.length = chunkCount f data := by
  rw [compressedStream, List.length_map, length_chunks_padInput]

/-- Deviation i belongs to chunk i (R133). -/
theorem getElem?_compressedStream_deviations {i : Nat} {x : Bits × Bit}
    (h : (chunks f (padInput f data).1)[i]? = some x) :
    (compressedStream tables f data).deviations[i]? = some (chunkDeviation tables f x) := by
  rw [compressedStream, List.getElem?_map, h, Option.map_some]

end CompressedStream

/-- Settles O41. -/
theorem compressAnswersOneEntryPerChunk : Obligations.CompressAnswersOneEntryPerChunk := by
  intro f s data htable hfit
  refine ⟨_, exec_compressOf_ok htable hfit, length_compressedStream_bases _ _ _,
    length_compressedStream_deviations _ _ _, padInput_flag f data, fun i w carry hchunk => ?_⟩
  have hw : w.length = blockLen f := length_window (List.mem_of_getElem? hchunk)
  exact ⟨_, _, decodeBlock_eq_decoded htable hw, getElem?_compressedStream_deviations _ _ _ hchunk,
    length_chunkDeviation (x := (w, carry)) htable hw⟩

/-- Settles O42: the properties are those of the Base sequence of any list of bases. -/
theorem compressDeduplicatesBases : Obligations.CompressDeduplicatesBases := by
  intro f s data htable hfit
  obtain ⟨hnodup, -⟩ := literals_baseEntries (decodedBases s.tables f data)
  exact ⟨_, exec_compressOf_ok htable hfit, fun _ _ => baseEntries_reference, length_literals_baseEntries _, hnodup,
    length_baseEntries _, fun _ _ _ => standsFor_baseEntries⟩

end Sys2Proof.Machine
end

section
/-! GDD pipeline, decompression (spec/42_gdd_pipeline.md R136, R137, R139, R140, R142). First what validation raises;
then the chunks that reconstruction gives; then COMPRESS followed by DECOMPRESS, and the windows of one base. -/

namespace Sys2Proof.Machine

/-! ### The first failing check (R136) -/

theorem validateStream_of_not_headerOk {f : Family} {cs : CompressedStream} (h : ¬ HeaderOk f cs) :
    validateStream f cs = .error .malformedStream := by
  unfold validateStream
  split_ifs with hlen h74 hempty
  · rfl
  · rfl
  · rfl
  · refine absurd ⟨not_not.1 hlen, fun hpad => ?_⟩ h
    cases f with
    | sevenFour => exact absurd ⟨hpad, rfl⟩ h74
    | fifteenEleven => exact ⟨rfl, fun hz => hempty ⟨hpad, rfl, hz⟩⟩

/-- A stream with a good header passes or fails with its entries. -/
theorem validateStream_of_headerOk {f : Family} {cs : CompressedStream} (h : HeaderOk f cs) :
    validateStream f cs = validateEntries f cs.bases cs.bases cs.deviations := by
  obtain ⟨hlen, hpad⟩ := h
  unfold validateStream
  rw [if_neg (not_not.2 hlen), if_neg ?sevenFour, if_neg ?empty]
  case sevenFour => rintro ⟨hp, rfl⟩; exact absurd (hpad hp).1 nofun
  case empty => rintro ⟨hp, -, hz⟩; exact (hpad hp).2 hz

section FirstEntry
variable {f : Family} {bases : List BaseEntry} {e : BaseEntry} {lit dev : Bits} (es : List BaseEntry) (devs : List Bits)

/-- An entry that stands for nothing: its reference is out of range or points at a reference. -/
theorem validateEntries_cons_unresolved (h : ∀ lit, ¬ StandsFor bases e lit) :
    validateEntries f bases (e :: es) (dev :: devs) = .error .malformedStream := by
  rw [validateEntries_cons]
  cases hr : resolveBase bases e with
  | ok lit => exact absurd ((resolveBase_eq_ok bases e lit).1 hr) (h lit)
  | error k => rw [resolveBase_error hr]; rfl

theorem validateEntries_cons_literal_width (h : StandsFor bases e lit) (hlit : lit.length ≠ messageLen f) :
    validateEntries f bases (e :: es) (dev :: devs) = .error .invalidLength := by
  rw [validateEntries_cons, (resolveBase_eq_ok bases e lit).2 h]
  exact if_pos hlit

theorem validateEntries_cons_deviation_width (h : StandsFor bases e lit) (hlit : lit.length = messageLen f)
    (hdev : dev.length ≠ deviationLen f) :
    validateEntries f bases (e :: es) (dev :: devs) = .error .malformedStream := by
  rw [validateEntries_cons, (resolveBase_eq_ok bases e lit).2 h]
  exact (if_neg (not_not.2 hlit)).trans (if_pos hdev)

end FirstEntry

/-- Validation raises what the first failing entry raises. -/
theorem validateEntries_of_first_error {f : Family} {bases es : List BaseEntry} {devs : List Bits} {i : Nat}
    {e : BaseEntry} {dev : Bits} {k : ErrorKind} (he : es[i]? = some e) (hdev : devs[i]? = some dev)
    (herr : ∀ es' devs', validateEntries f bases (e :: es') (dev :: devs') = .error k)
    (hbefore : ∀ i' e' dev', i' < i → es[i']? = some e' → devs[i']? = some dev' →
      ∃ lit, StandsFor bases e' lit ∧ lit.length = messageLen f ∧ dev'.length = deviationLen f) :
    validateEntries f bases es devs = .error k := by
  induction es generalizing i devs with
  | nil => simp at he
  | cons e₀ es ih =>
    cases devs with
    | nil => simp at hdev
    | cons dev₀ devs =>
      cases i with
      | zero =>
        obtain rfl : e₀ = e := Option.some.inj he
        obtain rfl : dev₀ = dev := Option.some.inj hdev
        exact herr es devs
      | succ i =>
        obtain ⟨lit, hstands, hlit, hwidth⟩ := hbefore 0 e₀ dev₀ (Nat.succ_pos i) rfl rfl
        rw [validateEntries_cons_ok ((resolveBase_eq_ok _ _ _).2 hstands) hlit hwidth,
          ih he hdev fun i' e' dev' hi' he' hdev' => hbefore (i' + 1) e' dev' (Nat.succ_lt_succ hi') he' hdev']
        rfl

theorem decompress_of_validate_error {f : Family} {cs : CompressedStream} {k : ErrorKind}
    (h : validateStream f cs = .error k) (tables : CodeTables) : decompress tables f cs = .error k := by
  rw [decompress, h]
  rfl

/-- An entry that passes its checks, with the entry and the deviation that stand at its position. -/
theorem EntryOk.exists_literal {f : Family} {cs : CompressedStream} {i : Nat} {e : BaseEntry} {dev : Bits}
    (h : EntryOk f cs i) (he : cs.bases[i]? = some e) (hdev : cs.deviations[i]? = some dev) :
    ∃ lit, StandsFor cs.bases e lit ∧ lit.length = messageLen f ∧ dev.length = deviationLen f := by
  obtain ⟨e', dev', lit, he', hdev', hstands, hlit, hwidth⟩ := h
  obtain rfl := Option.some.inj (he.symm.trans he')
  obtain rfl := Option.some.inj (hdev.symm.trans hdev')
  exact ⟨lit, hstands, hlit, hwidth⟩

/-- Settles O45: the header is looked at first, and then the entries up to the failing one pass. -/
theorem decompressReportsTheFirstFailingCheck : Obligations.DecompressReportsTheFirstFailingCheck := by
  intro f s cs hfit
  refine ⟨fun hheader => ?header, fun i e dev hheader hbefore he hdev => ?entry⟩
  case header =>
    exact exec_decompressOf_error (k := .malformedStream) hfit
      (decompress_of_validate_error (validateStream_of_not_headerOk hheader) _)
  case entry =>
    have hraise : ∀ k, (∀ es' devs', validateEntries f cs.bases (e :: es') (dev :: devs') = .error k) →
        exec (decompressOf f cs) s = .next (s.afterFault (errorCode k)) := by
      intro k herr
      refine exec_decompressOf_error hfit (decompress_of_validate_error ?_ _)
      rw [validateStream_of_headerOk hheader]
      exact validateEntries_of_first_error he hdev herr fun i' _ _ hi' => (hbefore i' hi').exists_literal
    exact ⟨fun hnone => hraise .malformedStream fun _ _ => validateEntries_cons_unresolved _ _ hnone,
      fun lit hstands hlit => hraise .invalidLength fun _ _ => validateEntries_cons_literal_width _ _ hstands hlit,
      fun lit hstands hlit hwidth =>
        hraise .malformedStream fun _ _ => validateEntries_cons_deviation_width _ _ hstands hlit hwidth⟩

/-! ### The chunks of the entries (R137, R139) -/

/-- The carry is the part of a deviation after its syndrome (R131). -/
theorem drop_deviation {f : Family} {dev : Bits} (h : dev.length = deviationLen f) :
    dev.drop (syndromeLen f) = [bitAt dev (syndromeLen f)] := by
  have hlt : syndromeLen f < dev.length := by rw [h, deviationLen]; omega
  rw [List.drop_eq_getElem_cons hlt, List.drop_eq_nil_of_le (by rw [h, deviationLen]), bitAt,
    List.getD_eq_getElem dev false hlt]

/-- Entry reconstruction: encode the literal, correct by the syndrome part, append the carry (R137). -/
theorem rebuildEntry_eq {tables : CodeTables} {f : Family} {lit dev c y : Bits}
    (hc : encodeBlock tables (some f) lit = .ok c) (hy : correctCore tables f c (dev.take (syndromeLen f)) = .ok y)
    (hdev : dev.length = deviationLen f) :
    rebuildEntry tables f lit dev = .ok (y ++ dev.drop (syndromeLen f)) := by
  rw [rebuildEntry, hc, drop_deviation hdev]
  simp only [bind, Except.bind, slice_zero, hy]
  rfl

section Rebuild
variable {tables : CodeTables} {f : Family}

/-- Over a valid table an entry rebuilds to its literal's codeword, with the bit flipped that the syndrome part names,
and the carry. -/
theorem exists_rebuildEntry_parts (h : tableValid f (tables.of f) = true) {lit dev : Bits}
    (hlit : lit.length = messageLen f) (hdev : dev.length = deviationLen f) :
    ∃ c y, vmm lit (tables.of f).G = .ok c ∧ rebuildEntry tables f lit dev = .ok (y ++ dev.drop (syndromeLen f)) ∧
      (dev.take (syndromeLen f) = zeros (syndromeLen f) → y = c) ∧
      (∀ j, j < blockLen f → col (tables.of f).H j = dev.take (syndromeLen f) → y = flipBit c j) := by
  have hsyndrome : (dev.take (syndromeLen f)).length = syndromeLen f := by simp [hdev, deviationLen]
  obtain ⟨c, hc⟩ := exists_encodeBlock_ok h hlit
  obtain ⟨y, hy⟩ := exists_correctCore_ok h c hsyndrome
  refine ⟨c, y, (encodeBlock_explicit hlit).symm.trans hc, rebuildEntry_eq hc hy hdev, fun hzero => ?zero,
    fun j hj hcol => ?flip⟩
  case zero =>
    rw [hzero, correctCore_zero] at hy
    exact (Except.ok.inj hy).symm
  case flip =>
    rw [← hcol, correctCore_col h c hj] at hy
    exact (Except.ok.inj hy).symm

/-- Over a valid table good entries rebuild to the bytes of one chunk each. -/
theorem exists_rebuildEntries_chunks (h : tableValid f (tables.of f) = true) {lits devs : List Bits}
    (hlen : lits.length = devs.length) (hlits : ∀ lit ∈ lits, lit.length = messageLen f)
    (hdevs : ∀ dev ∈ devs, dev.length = deviationLen f) :
    ∃ ys : List Bits, ys.length = lits.length ∧
      rebuildEntries tables f lits devs = .ok (ys.flatMap (bytesOfChunk f)) ∧
      ∀ (i : Nat) (lit dev : Bits), lits[i]? = some lit → devs[i]? = some dev →
        ∃ y, ys[i]? = some y ∧ rebuildEntry tables f lit dev = .ok y := by
  induction lits generalizing devs with
  | nil => exact ⟨[], rfl, by simp [rebuildEntries], by simp⟩
  | cons lit lits ih =>
    cases devs with
    | nil => simp at hlen
    | cons dev devs =>
      obtain ⟨hlit, hlits⟩ := List.forall_mem_cons.1 hlits
      obtain ⟨hdev, hdevs⟩ := List.forall_mem_cons.1 hdevs
      obtain ⟨y, hy⟩ := exists_rebuildEntry_ok h hlit hdev
      obtain ⟨ys, hysLen, hrest, hys⟩ := ih (Nat.succ.inj hlen) hlits hdevs
      refine ⟨y :: ys, congrArg (· + 1) hysLen, by rw [rebuildEntries_cons hy, hrest]; rfl, ?_⟩
      intro i lit' dev' hlit' hdev'
      cases i with
      | zero =>
        obtain rfl : lit = lit' := Option.some.inj hlit'
        obtain rfl : dev = dev' := Option.some.inj hdev'
        exact ⟨y, rfl, hy⟩
      | succ i => exact hys i lit' dev' hlit' hdev'

/-- Over a valid table a stream that passes validation decompresses to the bytes of its entries' chunks, less the
padding byte (R139). -/
theorem exists_decompress_chunks {cs : CompressedStream} (h : tableValid f (tables.of f) = true)
    (hcs : StreamOk f cs) :
    ∃ ys : List Bits, ys.length = cs.bases.length ∧
      decompress tables f cs =
        .ok (if cs.pad then (ys.flatMap (bytesOfChunk f)).dropLast else ys.flatMap (bytesOfChunk f)) ∧
      ∀ (i : Nat) (e : BaseEntry) (dev lit : Bits), cs.bases[i]? = some e → cs.deviations[i]? = some dev →
        StandsFor cs.bases e lit → ∃ y, ys[i]? = some y ∧ rebuildEntry tables f lit dev = .ok y := by
  obtain ⟨lits, hvalid, hlen, hlits⟩ := validateStream_ok hcs
  obtain ⟨lits', hvalid', -, hwidths⟩ := exists_validateStream_ok hcs
  obtain rfl := Except.ok.inj (hvalid.symm.trans hvalid')
  obtain ⟨ys, hysLen, hrebuild, hys⟩ := exists_rebuildEntries_chunks h
    (hlen.trans (length_bases_eq_deviations hcs)) hwidths fun _ => length_of_mem_deviations hcs
  refine ⟨ys, hysLen.trans hlen, ?_, fun i e dev lit he hdev hstands => ?_⟩
  · rw [decompress, hvalid]
    simp only [bind, Except.bind, hrebuild]
    rfl
  · have hi : i < lits.length := hlen ▸ (List.getElem?_eq_some_iff.1 he).1
    obtain ⟨hstands', -⟩ := hlits i e lits[i] he (List.getElem?_eq_getElem hi)
    obtain rfl : lits[i] = lit := standsFor_unique hstands' hstands
    exact hys i lits[i] dev (List.getElem?_eq_getElem hi) hdev

end Rebuild

theorem exec_decompressOf_ok {f : Family} {cs : CompressedStream} {s : State} {out : List Byte}
    (h : decompress s.tables f cs = .ok out) (hfit : Fits s (streamLoad cs)) (hout : Fits s (bytesLoad out)) :
    exec (decompressOf f cs) s = .next (s.afterOk (.bytes out)) := by
  have hload : Fits s (streamLoad cs ++ outputLoad (.ok out)) := fun c n hm =>
    (List.mem_append.1 hm).elim (hfit c n) (hout c n)
  rw [exec_decompressOf, finish_map_ok h, h, within_of_fits hload]

/-- Settles O44: every entry of the stream has passed validation, so its parts are those of a good entry. -/
theorem decompressRebuildsEveryEntry : Obligations.DecompressRebuildsEveryEntry := by
  intro f s cs htable hcs hfit hroom
  obtain ⟨ys, hlen, hdecompress, hys⟩ := exists_decompress_chunks htable hcs
  obtain ⟨out, hout, houtLen⟩ := exists_decompress_ok htable hcs
  obtain rfl := Except.ok.inj (hdecompress.symm.trans hout)
  rw [← houtLen] at hroom
  refine ⟨ys, hlen, exec_decompressOf_ok hdecompress hfit hroom, fun i e dev lit he hdev hstands => ?_⟩
  obtain ⟨-, hentries⟩ := hcs
  obtain ⟨lit', hstands', hlit, hwidth⟩ :=
    (hentries i (List.getElem?_eq_some_iff.1 he).1).exists_literal he hdev
  obtain rfl := standsFor_unique hstands' hstands
  obtain ⟨c, y, hc, hy, hzero, hflip⟩ := exists_rebuildEntry_parts htable hlit hwidth
  obtain ⟨z, hz, hz'⟩ := hys i e dev lit' he hdev hstands
  obtain rfl := Except.ok.inj (hy.symm.trans hz')
  exact ⟨c, y, hc, hz, hzero, hflip⟩

/-! ### Losslessness (R140) -/

section Lossless
variable {tables : CodeTables} {f : Family}

theorem getElem?_decodedBases {data : List Byte} {i : Nat} {x : Bits × Bit}
    (h : (chunks f (padInput f data).1)[i]? = some x) :
    (decodedBases tables f data)[i]? = some (decodedBase tables f x.1) := by
  rw [decodedBases, List.getElem?_map, h, Option.map_some]

/-- Entry i of the stream that COMPRESS answers, with what it stands for. -/
theorem exists_compressedStream_entry {data : List Byte} {i : Nat} {x : Bits × Bit}
    (h : (chunks f (padInput f data).1)[i]? = some x) :
    ∃ e, (compressedStream tables f data).bases[i]? = some e ∧
      StandsFor (compressedStream tables f data).bases e (decodedBase tables f x.1) :=
  ⟨_, getElem?_baseEntries (getElem?_decodedBases h),
    standsFor_baseEntries (getElem?_baseEntries (getElem?_decodedBases h)) (getElem?_decodedBases h)⟩

theorem headerOk_compressedStream (tables : CodeTables) (f : Family) (data : List Byte) :
    HeaderOk f (compressedStream tables f data) := by
  refine ⟨by simp, fun hpad => ?_⟩
  rcases padInput_cases f data with ⟨rfl, hodd, -⟩ | ⟨-, h⟩
  · rw [length_compressedStream_bases, chunkCount]
    exact ⟨rfl, by omega⟩
  · simp [compressedStream, h] at hpad

/-- What COMPRESS answers passes validation. -/
theorem streamOk_compressedStream (h : tableValid f (tables.of f) = true) (data : List Byte) :
    StreamOk f (compressedStream tables f data) := by
  refine ⟨headerOk_compressedStream tables f data, fun i hi => ?_⟩
  rw [length_compressedStream_bases, ← length_chunks_padInput] at hi
  have hx := List.getElem?_eq_getElem hi
  have hw := length_window (List.getElem_mem hi)
  obtain ⟨e, he, hstands⟩ := exists_compressedStream_entry (tables := tables) hx
  exact ⟨e, _, _, he, getElem?_compressedStream_deviations tables f data hx, hstands,
    decodeBlock_base_length (decodeBlock_eq_decoded h hw), length_chunkDeviation h hw⟩

/-- The base and the deviation of a chunk rebuild it: the GDD inversion (R113), and the carry as it was. -/
theorem rebuildEntry_chunk (h : tableValid f (tables.of f) = true) {x : Bits × Bit} (hx : x.1.length = blockLen f) :
    rebuildEntry tables f (decodedBase tables f x.1) (chunkDeviation tables f x) = .ok (x.1 ++ [x.2]) := by
  obtain ⟨c, hc, -, he, hw⟩ := correctCore_encode_of_decodeBlock h hx (decodeBlock_eq_decoded h hx)
  have htake : (chunkDeviation tables f x).take (syndromeLen f) = decodedSyndrome tables f x.1 := List.take_left' he
  have hdrop : (chunkDeviation tables f x).drop (syndromeLen f) = [x.2] := List.drop_left' he
  rw [rebuildEntry_eq hc (htake ▸ hw) (length_chunkDeviation h hx), hdrop]

/-- DECOMPRESS of what COMPRESS answers: its chunks are those of the padded input (R140). -/
theorem decompress_compressedStream (h : tableValid f (tables.of f) = true) (data : List Byte) :
    decompress tables f (compressedStream tables f data) = .ok data := by
  obtain ⟨ys, hlen, hdecompress, hys⟩ := exists_decompress_chunks h (streamOk_compressedStream h data)
  rw [length_compressedStream_bases, ← length_chunks_padInput] at hlen
  have hchunks : ys = (chunks f (padInput f data).1).map fun x => x.1 ++ [x.2] := by
    refine List.ext_getElem? fun i => ?_
    rw [List.getElem?_map]
    cases hx : (chunks f (padInput f data).1)[i]? with
    | none => rw [List.getElem?_eq_none_iff, ← hlen, ← List.getElem?_eq_none_iff] at hx; exact hx
    | some x =>
      obtain ⟨e, he, hstands⟩ := exists_compressedStream_entry (tables := tables) hx
      obtain ⟨y, hy, hrebuild⟩ := hys i e _ _ he (getElem?_compressedStream_deviations tables f data hx) hstands
      obtain rfl := Except.ok.inj ((rebuildEntry_chunk h (length_window (List.mem_of_getElem? hx))).symm.trans hrebuild)
      exact hy
  have hbytes : ys.flatMap (bytesOfChunk f) = (padInput f data).1 := by
    rw [hchunks, List.flatMap_map]
    exact chunkBytesInvertChunking f _ (length_padInput_mod f data)
  rw [hdecompress, hbytes]
  exact congrArg _ (dropLast_padInput f data)

end Lossless

/-- A stream's two sequences take the same of MaxStreamEntries. -/
theorem fits_streamLoad {s : State} {cs : CompressedStream} {n : Nat} (hbases : cs.bases.length = n)
    (hdeviations : cs.deviations.length = n) (hfit : Fits s [(.maxStreamEntries, n)]) : Fits s (streamLoad cs) := by
  intro c m hm
  rw [streamLoad, hbases, hdeviations] at hm
  exact hfit c m (by simpa using hm)

/-- Settles O46. -/
theorem compressThenDecompressRestores : Obligations.CompressThenDecompressRestores := by
  intro f s data htable hfit hentries
  refine ⟨_, compressedStream s.tables f data, exec_compressOf_ok htable hfit, lastResponse_of_outbox rfl, ?_⟩
  have hstream : Fits s (streamLoad (compressedStream s.tables f data)) := fits_streamLoad
    (length_compressedStream_bases _ _ _) (length_compressedStream_deviations _ _ _) hentries
  exact exec_decompressOf_ok (decompress_compressedStream htable data) hstream hfit

/-! ### The windows of one base (R142) -/

section Spheres
variable {tables : CodeTables} {f : Family}

/-- A window corrects to the codeword of its base. -/
theorem encodeBlock_decodedBase (h : tableValid f (tables.of f) = true) {w e c : Bits} (hw : w.length = blockLen f)
    (he : syndrome tables f w = .ok e) (hc : correctCore tables f w e = .ok c) :
    encodeBlock tables (some f) (decodedBase tables f w) = .ok c := by
  have hdecode := decodeBlock_eq_ok hw he hc
  obtain ⟨c', hc', -, -, hback⟩ := correctCore_encode_of_decodeBlock h hw hdecode
  obtain rfl := Except.ok.inj ((correctCore_twice h hback).symm.trans hc)
  rw [decodedBase, hdecode]
  exact hc'

/-- The windows of a base. -/
def sphere (tables : CodeTables) (f : Family) (b : Bits) : List Bits :=
  (allBits (blockLen f)).filter fun w => decodedBase tables f w == b

theorem mem_sphere (tables : CodeTables) (f : Family) (b w : Bits) :
    w ∈ sphere tables f b ↔ w.length = blockLen f ∧ decodedBase tables f w = b := by
  rw [sphere, List.mem_filter, mem_allBits, beq_iff_eq]

/-- The windows of a base have every m-bit syndrome, each once. -/
theorem perm_syndromes_sphere (h : tableValid f (tables.of f) = true) {b : Bits} (hb : b.length = messageLen f) :
    ((sphere tables f b).map (decodedSyndrome tables f)).Perm (allBits (syndromeLen f)) := by
  have hnodup : ((sphere tables f b).map (decodedSyndrome tables f)).Nodup := by
    refine List.Nodup.map_on (fun w hw w' hw' heq => ?_) ((nodup_allBits _).filter _)
    obtain ⟨hlen, hbase⟩ := (mem_sphere tables f b w).1 hw
    obtain ⟨hlen', hbase'⟩ := (mem_sphere tables f b w').1 hw'
    refine decodeBlock_injOn h hlen hlen' ?_
    rw [decodeBlock_eq_decoded h hlen, decodeBlock_eq_decoded h hlen', hbase, hbase', heq]
  refine (List.perm_ext_iff_of_nodup hnodup (nodup_allBits _)).2 fun e => ?_
  rw [List.mem_map, mem_allBits]
  constructor
  · rintro ⟨w, hw, rfl⟩
    exact length_decodedSyndrome h ((mem_sphere tables f b w).1 hw).1
  · intro he
    obtain ⟨c, hc⟩ := exists_encodeBlock_ok h hb
    obtain ⟨w, hw⟩ := exists_correctCore_ok h c he
    obtain ⟨hlen, hdecode⟩ := decodeBlock_of_correctCore h hb hc hw
    obtain ⟨hbase, hsyndrome⟩ :=
      Prod.mk.inj (Except.ok.inj ((decodeBlock_eq_decoded h hlen).symm.trans hdecode))
    exact ⟨w, (mem_sphere tables f b w).2 ⟨hlen, hbase⟩, hsyndrome⟩

end Spheres

/-- Settles O47: a base and the word that its windows correct to determine each other, and the windows of a base are
told apart by their syndromes. -/
theorem basesAreHammingSpheres : Obligations.BasesAreHammingSpheres := by
  intro f tables htable
  refine ⟨fun w w' hw hw' => ?share, fun b hb => ?count⟩
  case share =>
    obtain ⟨e, c, he, -, hc, hdecode⟩ := exists_decodeBlock_ok htable hw
    obtain ⟨e', c', he', -, hc', hdecode'⟩ := exists_decodeBlock_ok htable hw'
    refine ⟨e, e', c, c', he, he', hc, hc', fun hbase => ?_, fun hcc => ?_⟩
    · have hencode := encodeBlock_decodedBase htable hw he hc
      rw [hbase, encodeBlock_decodedBase htable hw' he' hc'] at hencode
      exact (Except.ok.inj hencode).symm
    · rw [decodedBase, decodedBase, hdecode, hdecode', hcc]
  case count =>
    have hlen := (perm_syndromes_sphere htable hb).length_eq
    rwa [List.length_map, length_allBits] at hlen

end Sys2Proof.Machine
end
